-- ==== Sys2Proof/Word.lean ====
section
/-!
DEFINITION. The three widths of the machine: 16-bit words, 15-bit values, 8-bit character codes
(spec 00_scope.md R5), and the register numbers (10_state.md R12).
-/

namespace Sys2Proof

/-- A memory cell, an instruction word, a stack entry or the pc: `WORD_BITS` = 16 (R5). -/
abbrev Word := BitVec 16

/-- What a register holds and the ALU computes: `VALUE_BITS` = 15, unsigned (R5, R6, R13).
Also a data address: an address is 15 bits wide (R34). -/
abbrev Value := BitVec 15

/-- A character code of the input and output channels: 8 bits (R5, R25). -/
abbrev Code := BitVec 8

/-- A register number: r0..r7 (R12). -/
abbrev Reg := Fin 8

end Sys2Proof
end

