-- ==== Sys2Proof/Config.lean ====
section
/-!
DEFINITION. The parameters of spec 00_scope.md R5. Every one is fixed by the spec; the one that a
realisation may choose, `STACK_CAPACITY`, is a field of the state, and here stands its default.
The spec leaves no value open as a draw (93_implementation_defined.md Part 1), so there is no free
value.
-/

namespace Sys2Proof

/-- `MEM_WORDS`: the memory array has 32768 cells (R5, R10). -/
abbrev Config.memWords : Nat := 32768

/-- `REG_BASE`: operand word 32768 + i names register i (R5, R12). -/
abbrev Config.regBase : Nat := 32768

/-- `INVALID_MIN`: the least invalid operand word (R5, R51). -/
abbrev Config.invalidMin : Nat := 32776

/-- `NUM_OPCODES`: opcode words 0..21 are legal (R5, R56). -/
abbrev Config.numOpcodes : Nat := 22

/-- The longest instruction has 4 words (R48). -/
abbrev Config.maxLength : Nat := 4

/-- `LINE_TERMINATOR`: the newline code, kept in the buffer (R5). PRESUMED: the spec takes the value
10 from general knowledge (G2); log entry 5. -/
def Config.lineTerminator : Code := 10

/-- The default of `STACK_CAPACITY`: `none` stands for unbounded (R5, R16). -/
abbrev Config.defaultStackCapacity : Option Nat := none

end Sys2Proof
end

