-- ==== Sys2Proof/Machine/State.lean ====
section
/-!
DEFINITION. The state of the block as spec 10_state.md lists it, its value after reset (R29), and the
reasons a step can stop.
-/

namespace Sys2Proof.Machine

/-- The memory array as the cells that are not 0: (word address, word) pairs in rising order. A cell
is a 16-bit word, the smallest unit the block addresses (R34, R35). An unlisted address reads as 0:
memory is zero-padded (R29, R42). -/
abbrev Memory := List (Nat × Word)

/-- The run state (R21). -/
inductive RunState
  | running
  | halted
  | errored
  deriving DecidableEq, Repr

/-- The error classes of 60_exceptions.md R88, and `noError` for "none". -/
inductive ErrorClass
  | noError
  | invalidOperand
  | unknownOpcode
  | stackUnderflow
  | divisionByZero
  | addressOutOfRange
  | stackOverflow
  deriving DecidableEq, Repr

/-- Every piece of state 10_state.md gives the block, the parameter `STACK_CAPACITY`, and the host's
input codes still to come. -/
structure State where
  /-- The memory array (R10, R11). -/
  mem : Memory
  /-- The register file x[0]..x[7], 15 bits each (R12, R13). -/
  regs : Vector Value 8
  /-- The stack of 16-bit entries; the head of the list is the top entry (R16, R17). -/
  stack : List Word
  /-- The program counter, a word address (R19). -/
  pc : Word
  /-- The run state (R21). -/
  run : RunState
  /-- `err_code` of the error record (R24). -/
  errCode : ErrorClass
  /-- `err_value` of the error record (R24). -/
  errValue : Word
  /-- The pending input buffer, oldest code first (R25). -/
  inBuf : List Code
  /-- The output stream: the codes OUT emitted, oldest first (R26). -/
  outStream : List Code
  /-- The input stream: the codes IN consumed, oldest first (R26). -/
  inStream : List Code
  /-- The lines the block asked the host for, oldest first: the host-side trace of R26. -/
  lineTrace : List (List Code)
  /-- `STACK_CAPACITY` (R5, R16): `none` is unbounded. No step changes it. -/
  stackCapacity : Option Nat
  /-- The model's own field: the codes the host will offer on the input channel (R96), oldest
  first. DESIGN CHOICE, log entry 3. -/
  hostInput : List Code
  deriving DecidableEq, Repr

/-- Why the model has no next state. An ERROR of the spec is none of these: it is a next state whose
run state is ERRORED (R87, R89). -/
inductive Fault
  /-- The run state is HALTED, which is final: it has no successor (R22). Raised by `step`. Safe. -/
  | finalHalted
  /-- The run state is ERRORED, which is final: it has no successor (R22). Raised by `step`. Safe. -/
  | finalErrored
  /-- An IN found the buffer empty and the host has no complete line: the model has no step, the
  state is stuck and not final (R85, R99). Raised by IN. Safe. -/
  | inputWait
  deriving DecidableEq, Repr

/-- What the model gives no meaning. -/
inductive Refusal
  /-- An instruction of the opcode table without a meaning yet. Raised by an arm of `exec`; no arm
  does so now. Safe. -/
  | notModelled (mnemonic : String)
  /-- An image longer than 32768 words: refused as a precondition of the load (R42, U1). Raised by
  `State.boot`, never by a step. Safe. -/
  | imageTooLong
  deriving DecidableEq, Repr

/-- What executing one instruction gives. -/
abbrev Result := Host.Outcome State Fault Refusal

/-- The block right after reset with no image loaded (R29, R100). `lineTrace`, `stackCapacity` and
`hostInput` have the values of log entries 3 and 4. -/
def State.reset : State where
  mem := []
  regs := Vector.replicate 8 0
  stack := []
  pc := 0
  run := .running
  errCode := .noError
  errValue := 0
  inBuf := []
  outStream := []
  inStream := []
  lineTrace := []
  stackCapacity := Config.defaultStackCapacity
  hostInput := []

end Sys2Proof.Machine
end

