-- ==== Sys2Proof/Machine/Ops.lean ====
section
/-!
DEFINITION. The named operations over memory, registers, the stack, the pc, the channels and the error
record (spec 00_scope.md R7). Raising an error is `State.raise` (60_exceptions.md R87), one operation for
every instruction and for the fetch.
-/

namespace Sys2Proof.Machine

/-! ### Memory cells -/

/-- The word at an address of a memory (R35, R39): unchanged as stored; 0 where nothing is listed. -/
def Memory.read : Memory → Nat → Word
  | [], _ => 0
  | (k, w) :: rest, a => if k = a then w else Memory.read rest a

/-- A cell put into its place in the rising order. -/
def Memory.insert (a : Nat) (w : Word) : Memory → Memory
  | [] => [(a, w)]
  | (k, v) :: rest => if a < k then (a, w) :: (k, v) :: rest else (k, v) :: Memory.insert a w rest

/-- The memory without what is listed at an address. -/
def Memory.erase (m : Memory) (a : Nat) : Memory := m.filter (fun cell => cell.1 != a)

/-- A raw 16-bit write of one cell; writing 0, which an unlisted address reads as, lists nothing. -/
def Memory.write (m : Memory) (a : Nat) (w : Word) : Memory :=
  if w = 0 then m.erase a else (m.erase a).insert a w

/-- The listed addresses rise strictly from `low` on, are below `MEM_WORDS`, and no listed word is 0. -/
def Memory.wfFrom (low : Nat) : Memory → Bool
  | [] => true
  | (k, w) :: rest =>
    decide (low ≤ k) && decide (k < Config.memWords) && decide (w ≠ 0) && Memory.wfFrom (k + 1) rest

/-- The canonical form of memory. -/
def Memory.wf (m : Memory) : Bool := Memory.wfFrom 0 m

/-- `v mod 32768`: bit 15 is dropped (R14). -/
def reduce (w : Word) : Value := w.setWidth 15

/-- A value as a 16-bit word, bit 15 zero (R13). -/
def widen (v : Value) : Word := v.setWidth 16

/-- `MemRead(addr, 1)` (R7, R35, R39). -/
def State.memRead (s : State) (addr : Value) : Word := s.mem.read addr.toNat

/-- `MemWrite(addr, 1, v)`: the value stored is `v mod 32768` (R7, R14, R39). -/
def State.memWrite (s : State) (addr : Value) (v : Word) : State :=
  { s with mem := s.mem.write addr.toNat (widen (reduce v)) }

/-- The load port's write of one image word, unreduced (R42, R101). -/
def State.loadWord (s : State) (addr : Nat) (w : Word) : State :=
  { s with mem := s.mem.write addr w }

/-- Image words loaded at rising addresses from `addr` on; those past the last cell do not exist
(R101: a load address has 15 bits). -/
def State.loadWords (s : State) (addr : Nat) : List Word → State
  | [] => s
  | w :: ws =>
    if addr < Config.memWords then (s.loadWord addr w).loadWords (addr + 1) ws else s

/-! ### Registers, pc, run state -/

/-- `x[i]` (R7, R15). -/
def State.getReg (s : State) (r : Reg) : Value := s.regs[r.val]

/-- `x[i] <- v`, for a value already reduced (R7, R14). -/
def State.setReg (s : State) (r : Reg) (v : Value) : State :=
  { s with regs := s.regs.set r.val v }

/-- `pc <- target` (R7). -/
def State.setPc (s : State) (target : Word) : State := { s with pc := target }

/-- `pc <- pc + len` (R20). -/
def State.advance (s : State) (len : Nat) : State := s.setPc (s.pc + BitVec.ofNat 16 len)

/-- `halt` (R7, R21). -/
def State.halt (s : State) : State := { s with run := .halted }

/-- `raise E(v)` (R87): run state and error record; nothing else changes. -/
def State.raise (s : State) (e : ErrorClass) (v : Word) : State :=
  { s with run := .errored, errCode := e, errValue := v }

/-- The code of a run state on the status port (R21). -/
def RunState.code : RunState → BitVec 2
  | .running => 0
  | .halted => 1
  | .errored => 2

/-- The code of an error class (R88). -/
def ErrorClass.code : ErrorClass → BitVec 3
  | .noError => 0
  | .invalidOperand => 1
  | .unknownOpcode => 2
  | .stackUnderflow => 3
  | .divisionByZero => 4
  | .addressOutOfRange => 5
  | .stackOverflow => 6

/-! ### Stack -/

/-- The stack is bounded and its depth equals the bound (R17). -/
def State.stackFull (s : State) : Bool := decide (s.stackCapacity = some s.stack.length)

/-- `push(v)` on a stack that is not full: the entry is stored without reduction (R17). -/
def State.pushEntry (s : State) (v : Word) : State := { s with stack := v :: s.stack }

/-- `push(v)`, or `none` where it raises StackOverflow(0) (R17). -/
def State.push (s : State) (v : Word) : Option State :=
  if s.stackFull then none else some (s.pushEntry v)

/-- `pop()`: the top entry and the state without it; `none` for the empty stack, which means what the
caller says (R17). -/
def State.pop (s : State) : Option (Word × State) :=
  match s.stack with
  | [] => none
  | v :: rest => some (v, { s with stack := rest })

/-! ### Character channels -/

/-- `emit(b)`: the code is appended to the output stream (R7, R84, R95). -/
def State.emit (s : State) (c : Code) : State := { s with outStream := s.outStream ++ [c] }

/-- The first line among codes, its terminator included, and the codes after it; `none` where no
complete line is there (R85, R96). -/
def takeLine : List Code → Option (List Code × List Code)
  | [] => none
  | c :: rest =>
    if c = Config.lineTerminator then some ([c], rest)
    else
      match takeLine rest with
      | none => none
      | some (line, after) => some (c :: line, after)

/-- One line requested of the host and taken into the buffer; `none` while the host has no complete
line (R85, R96). -/
def State.refill (s : State) : Option State :=
  match takeLine s.hostInput with
  | none => none
  | some (line, after) =>
    some { s with inBuf := line, hostInput := after, lineTrace := s.lineTrace ++ [line] }

/-- The oldest code of the buffer, consumed (R26, R85). -/
def State.dequeue (s : State) : Option (Code × State) :=
  match s.inBuf with
  | [] => none
  | c :: rest => some (c, { s with inBuf := rest, inStream := s.inStream ++ [c] })

/-- `next_input()`: the oldest code, the buffer refilled first when it is empty; `none` is the wait
for a line (R7, R85). -/
def State.nextInput (s : State) : Option (Code × State) :=
  match s.inBuf with
  | _ :: _ => s.dequeue
  | [] =>
    match s.refill with
    | none => none
    | some t => t.dequeue

end Sys2Proof.Machine
end

