-- ==== Sys2Proof/Machine/Flags.lean ====
section
/-!
DEFINITION. The ALU's results (spec 44_alu.md R72 to R78, 42_compare.md R67, R68). The block has no
flags and no condition codes (10_state.md R27): every result, a comparison's 0 or 1 included, goes to the
destination operand, and no instruction records a carry or an overflow.
-/

namespace Sys2Proof.Machine

/-- A natural number taken mod 32768: bits 14:0 (R72). -/
def narrow (n : Nat) : Value := BitVec.ofNat 15 n

/-- The exact sum, mod 32768 (R73). -/
def aluAdd (b c : Value) : Value := narrow (b.toNat + c.toNat)

/-- The exact product, mod 32768 (R74). -/
def aluMult (b c : Value) : Value := narrow (b.toNat * c.toNat)

/-- The natural-number remainder, for a divisor that is not 0 (R75). -/
def aluMod (b c : Value) : Value := narrow (b.toNat % c.toNat)

/-- Bitwise AND of bits 14:0 (R76). -/
def aluAnd (b c : Value) : Value := b &&& c

/-- Bitwise OR of bits 14:0 (R77). -/
def aluOr (b c : Value) : Value := b ||| c

/-- `b XOR 32767`: the 15-bit complement (R78). -/
def aluNot (b : Value) : Value := b ^^^ 32767

/-- 1 if the values are equal, else 0 (R67). -/
def aluEq (b c : Value) : Value := if b = c then 1 else 0

/-- 1 if the first value is greater, unsigned and strict, else 0 (R68). -/
def aluGt (b c : Value) : Value := if c.toNat < b.toNat then 1 else 0

end Sys2Proof.Machine
end

