-- ==== Sys2Proof/Syntax.lean ====
section
/-!
DEFINITION. The instructions of spec 30_encoding.md R49: one constructor per row of
spec/opcode_table.json, in the table's order.
-/

namespace Sys2Proof

/-- A legal operand word (R51): a literal 0..32767 or a register. An invalid word (32776..65535) is
no operand: the decoder reports it. -/
inductive Operand
  | lit (v : Value)
  | reg (r : Reg)
  deriving DecidableEq, Repr

/-- The 22 instructions (R49). The operands stand in the order a, b, c of the words; whether one is a
destination or a read operand is the instruction's (R48, R49). `inp` is the table's IN (`in` is a
word of Lean). -/
inductive Instr
  | halt
  | set (a b : Operand)
  | push (a : Operand)
  | pop (a : Operand)
  | eq (a b c : Operand)
  | gt (a b c : Operand)
  | jmp (a : Operand)
  | jt (a b : Operand)
  | jf (a b : Operand)
  | add (a b c : Operand)
  | mult (a b c : Operand)
  | mod (a b c : Operand)
  | and (a b c : Operand)
  | or (a b c : Operand)
  | not (a b : Operand)
  | rmem (a b : Operand)
  | wmem (a b : Operand)
  | call (a : Operand)
  | ret
  | out (a : Operand)
  | inp (a : Operand)
  | noop
  deriving DecidableEq, Repr

/-- The destination operand of an instruction, where its format has one: formats D, DR and DRR
(R48, R49). WMEM has none (R54). -/
def Instr.dest : Instr → Option Operand
  | .halt => none
  | .set a _ => some a
  | .push _ => none
  | .pop a => some a
  | .eq a _ _ => some a
  | .gt a _ _ => some a
  | .jmp _ => none
  | .jt _ _ => none
  | .jf _ _ => none
  | .add a _ _ => some a
  | .mult a _ _ => some a
  | .mod a _ _ => some a
  | .and a _ _ => some a
  | .or a _ _ => some a
  | .not a _ => some a
  | .rmem a _ => some a
  | .wmem _ _ => none
  | .call _ => none
  | .ret => none
  | .out _ => none
  | .inp a => some a
  | .noop => none

end Sys2Proof
end

