-- ==== Sys2Proof/Machine/Operands.lean ====
section
/-!
DEFINITION. The two operand resolutions (spec 30_encoding.md R52, R53). Invalid operand words never
reach them: the decoder has reported those (R59).
-/

namespace Sys2Proof.Machine

/-- `read(op)`: a literal stands for itself, a register word for the register's contents; memory is
never read (R52). -/
def State.readOp (s : State) : Operand → Value
  | .lit v => v
  | .reg r => s.getReg r

/-- `store(op, v)`: a register word names the register, a literal names the memory cell; the value is
reduced mod 32768 (R53, R14). -/
def State.store (s : State) (op : Operand) (v : Word) : State :=
  match op with
  | .reg r => s.setReg r (reduce v)
  | .lit n => s.memWrite n v

end Sys2Proof.Machine
end

