-- ==== Sys2Proof/Machine/Alu.lean ====
section
/-!
DEFINITION. ADD, MULT, MOD, AND, OR, NOT (spec 44_alu.md).
-/

namespace Sys2Proof.Machine

/-- ADD (R73). -/
def execAdd (a b c : Operand) (s : State) : Result :=
  .next ((s.store a (widen (aluAdd (s.readOp b) (s.readOp c)))).advance 4)

/-- MULT (R74). -/
def execMult (a b c : Operand) (s : State) : Result :=
  .next ((s.store a (widen (aluMult (s.readOp b) (s.readOp c)))).advance 4)

/-- MOD (R75): DivisionByZero(0) for the divisor 0. -/
def execMod (a b c : Operand) (s : State) : Result :=
  if s.readOp c = 0 then .next (s.raise .divisionByZero 0)
  else .next ((s.store a (widen (aluMod (s.readOp b) (s.readOp c)))).advance 4)

/-- AND (R76). -/
def execAnd (a b c : Operand) (s : State) : Result :=
  .next ((s.store a (widen (aluAnd (s.readOp b) (s.readOp c)))).advance 4)

/-- OR (R77). -/
def execOr (a b c : Operand) (s : State) : Result :=
  .next ((s.store a (widen (aluOr (s.readOp b) (s.readOp c)))).advance 4)

/-- NOT (R78). -/
def execNot (a b : Operand) (s : State) : Result :=
  .next ((s.store a (widen (aluNot (s.readOp b)))).advance 3)

end Sys2Proof.Machine
end

