-- ==== Sys2Proof/Machine/CallReturn.lean ====
section
/-!
DEFINITION. CALL and RET (spec 46_call_return.md).
-/

namespace Sys2Proof.Machine

/-- CALL (R82): pushes pc + 2 as 16 bits, unreduced; StackOverflow(0) on a full bounded stack. -/
def execCall (a : Operand) (s : State) : Result :=
  match s.push (s.pc + 2) with
  | none => .next (s.raise .stackOverflow 0)
  | some t => .next (t.setPc (widen (s.readOp a)))

/-- RET (R83): on an empty stack it halts, which is no error, and the pc advances by 1. -/
def execRet (s : State) : Result :=
  match s.pop with
  | none => .next (s.halt.advance 1)
  | some (v, t) => .next (t.setPc v)

end Sys2Proof.Machine
end

