-- ==== Sys2Proof/Machine/Compare.lean ====
section
/-!
DEFINITION. EQ and GT (spec 42_compare.md).
-/

namespace Sys2Proof.Machine

/-- EQ (R67). -/
def execEq (a b c : Operand) (s : State) : Result :=
  .next ((s.store a (widen (aluEq (s.readOp b) (s.readOp c)))).advance 4)

/-- GT (R68). -/
def execGt (a b c : Operand) (s : State) : Result :=
  .next ((s.store a (widen (aluGt (s.readOp b) (s.readOp c)))).advance 4)

end Sys2Proof.Machine
end

