-- ==== Sys2Proof/Machine/HaltSetStack.lean ====
section
/-!
DEFINITION. HALT, SET, PUSH, POP (spec 41_halt_set_stack.md).
-/

namespace Sys2Proof.Machine

/-- HALT (R63). -/
def execHalt (s : State) : Result := .next (s.halt.advance 1)

/-- SET (R64). -/
def execSet (a b : Operand) (s : State) : Result :=
  .next ((s.store a (widen (s.readOp b))).advance 3)

/-- PUSH (R65): StackOverflow(0) on a full bounded stack. -/
def execPush (a : Operand) (s : State) : Result :=
  match s.push (widen (s.readOp a)) with
  | none => .next (s.raise .stackOverflow 0)
  | some t => .next (t.advance 2)

/-- POP (R66): StackUnderflow(0) on an empty stack; the stored value is reduced mod 32768. -/
def execPop (a : Operand) (s : State) : Result :=
  match s.pop with
  | none => .next (s.raise .stackUnderflow 0)
  | some (v, t) => .next ((t.store a v).advance 2)

end Sys2Proof.Machine
end

