-- ==== Sys2Proof/Machine/InputOutput.lean ====
section
/-!
DEFINITION. OUT, IN, NOOP (spec 47_io_noop.md).
-/

namespace Sys2Proof.Machine

/-- OUT (R84): emits the low byte. -/
def execOut (a : Operand) (s : State) : Result :=
  .next ((s.emit ((s.readOp a).setWidth 8)).advance 2)

/-- IN (R85): with an empty buffer and no complete host line it waits, and the model has no step. -/
def execIn (a : Operand) (s : State) : Result :=
  match s.nextInput with
  | none => .fault .inputWait
  | some (c, t) => .next ((t.store a (c.setWidth 16)).advance 2)

/-- NOOP (R86). -/
def execNoop (s : State) : Result := .next (s.advance 1)

end Sys2Proof.Machine
end

