-- ==== Sys2Proof/Machine/Jumps.lean ====
section
/-!
DEFINITION. JMP, JT, JF (spec 43_jumps.md).
-/

namespace Sys2Proof.Machine

/-- JMP (R69). -/
def execJmp (a : Operand) (s : State) : Result := .next (s.setPc (widen (s.readOp a)))

/-- JT (R70): jumps when the tested value is not 0. -/
def execJt (a b : Operand) (s : State) : Result :=
  if s.readOp a ≠ 0 then .next (s.setPc (widen (s.readOp b))) else .next (s.advance 3)

/-- JF (R71): jumps when the tested value is 0. -/
def execJf (a b : Operand) (s : State) : Result :=
  if s.readOp a = 0 then .next (s.setPc (widen (s.readOp b))) else .next (s.advance 3)

end Sys2Proof.Machine
end

