-- ==== Sys2Proof/Machine/MemoryAccess.lean ====
section
/-!
DEFINITION. RMEM and WMEM (spec 45_memory_access.md).
-/

namespace Sys2Proof.Machine

/-- RMEM (R80): the word read may be 32768 or more, and the store reduces it. -/
def execRmem (a b : Operand) (s : State) : Result :=
  .next ((s.store a (s.memRead (s.readOp b))).advance 3)

/-- WMEM (R81): both operands are read operands (R54). -/
def execWmem (a b : Operand) (s : State) : Result :=
  .next ((s.memWrite (s.readOp a) (widen (s.readOp b))).advance 3)

end Sys2Proof.Machine
end

