-- ==== Sys2Proof/WellFormed.lean ====
section
/-!
DEFINITION. What makes a sequence of words one well-formed instruction: a legal opcode word, as many
operand words as its row says, every operand word legal (spec 30_encoding.md R48, R49, R51, R56).
An `Instr` carries its operands as `Operand`, so an ill-formed instruction exists only as words.
The check is written on the words and apart from the decoder, which a statement compares with it.
-/

namespace Sys2Proof

/-- The "operands" column of the opcode map, by opcode 0..21 (R49). -/
def operandCounts : List Nat :=
  [0, 2, 1, 1, 3, 3, 1, 2, 2, 3, 3] ++ [3, 3, 3, 2, 2, 2, 1, 0, 1, 1, 0]

/-- An operand word is a literal or a register word, and not 32776..65535 (R51). -/
def operandWordLegal (w : Word) : Bool := decide (w.toNat < Config.invalidMin)

/-- The words are exactly one legal instruction: opcode (R56), length (R48), operand classes (R51). -/
def wordsWellFormed : List Word → Bool
  | [] => false
  | op :: operands =>
    match operandCounts[op.toNat]? with
    | none => false
    | some n => operands.length == n && operands.all operandWordLegal

end Sys2Proof
end

