-- ==== Sys2Proof/Decode.lean ====
section
/-!
DEFINITION. The instruction decoder and the encoder (spec 30_encoding.md R48 to R60). The decoder
takes the words from the opcode word on and is total; it rejects by name. Memory gives whole words
(20_memory.md R35, R36), so no byte order enters.
-/

namespace Sys2Proof

/-- Why words are no instruction, in the order of R60. -/
inductive DecodeError
  /-- There is no opcode word (R60 item 1: the fetch at pc is out of range). -/
  | noWord
  /-- The opcode word is 22..65535 (R56; R60 item 2). -/
  | unknownOpcode (w : Word)
  /-- The k-th operand word (k = 1, 2, 3) is not there (R60 item 3, the least such k). -/
  | missingOperand (k : Nat)
  /-- An operand word is 32776..65535 (R51, R59; R60 item 4, the first such word). -/
  | invalidOperand (w : Word)
  deriving DecidableEq, Repr

/-- The class of an operand word (R51): literal, register, or `none` for an invalid word. -/
def operandOfWord (w : Word) : Option Operand :=
  if w.toNat < Config.regBase then some (.lit (w.setWidth 15))
  else if h : w.toNat < Config.invalidMin then some (.reg ⟨w.toNat - Config.regBase, by
    have h' : w.toNat < 32776 := h
    show w.toNat - 32768 < 8
    omega⟩)
  else none

/-- Format Z: no operand word. -/
def decodeFormat0 (i : Instr) (ws : List Word) : Except DecodeError (Instr × List Word) :=
  .ok (i, ws)

/-- Formats R and D: one operand word. -/
def decodeFormat1 (mk : Operand → Instr) : List Word → Except DecodeError (Instr × List Word)
  | [] => .error (.missingOperand 1)
  | a :: rest =>
    match operandOfWord a with
    | none => .error (.invalidOperand a)
    | some oa => .ok (mk oa, rest)

/-- Formats DR and RR: two operand words, both there before either is classified (R58, R60). -/
def decodeFormat2 (mk : Operand → Operand → Instr) :
    List Word → Except DecodeError (Instr × List Word)
  | [] => .error (.missingOperand 1)
  | [_] => .error (.missingOperand 2)
  | a :: b :: rest =>
    match operandOfWord a, operandOfWord b with
    | none, _ => .error (.invalidOperand a)
    | some _, none => .error (.invalidOperand b)
    | some oa, some ob => .ok (mk oa ob, rest)

/-- Format DRR: three operand words, all there before any is classified (R58, R60). -/
def decodeFormat3 (mk : Operand → Operand → Operand → Instr) :
    List Word → Except DecodeError (Instr × List Word)
  | [] => .error (.missingOperand 1)
  | [_] => .error (.missingOperand 2)
  | [_, _] => .error (.missingOperand 3)
  | a :: b :: c :: rest =>
    match operandOfWord a, operandOfWord b, operandOfWord c with
    | none, _, _ => .error (.invalidOperand a)
    | some _, none, _ => .error (.invalidOperand b)
    | some _, some _, none => .error (.invalidOperand c)
    | some oa, some ob, some oc => .ok (mk oa ob oc, rest)

/-- The opcode map (R49): the instruction the words begin with and the words after it. -/
def decode : List Word → Except DecodeError (Instr × List Word)
  | [] => .error .noWord
  | op :: ws =>
    match op.toNat with
    | 0 => decodeFormat0 .halt ws
    | 1 => decodeFormat2 .set ws
    | 2 => decodeFormat1 .push ws
    | 3 => decodeFormat1 .pop ws
    | 4 => decodeFormat3 .eq ws
    | 5 => decodeFormat3 .gt ws
    | 6 => decodeFormat1 .jmp ws
    | 7 => decodeFormat2 .jt ws
    | 8 => decodeFormat2 .jf ws
    | 9 => decodeFormat3 .add ws
    | 10 => decodeFormat3 .mult ws
    | 11 => decodeFormat3 .mod ws
    | 12 => decodeFormat3 .and ws
    | 13 => decodeFormat3 .or ws
    | 14 => decodeFormat2 .not ws
    | 15 => decodeFormat2 .rmem ws
    | 16 => decodeFormat2 .wmem ws
    | 17 => decodeFormat1 .call ws
    | 18 => decodeFormat0 .ret ws
    | 19 => decodeFormat1 .out ws
    | 20 => decodeFormat1 .inp ws
    | 21 => decodeFormat0 .noop ws
    | _ => .error (.unknownOpcode op)

/-- The word of an operand (R51, R61): a literal is its own value, register r is 32768 + r. -/
def Operand.toWord : Operand → Word
  | .lit v => v.setWidth 16
  | .reg r => BitVec.ofNat 16 (Config.regBase + r.val)

/-- The encoder: the words of an instruction (R48, R49). -/
def encode : Instr → List Word
  | .halt => [0]
  | .set a b => [1, a.toWord, b.toWord]
  | .push a => [2, a.toWord]
  | .pop a => [3, a.toWord]
  | .eq a b c => [4, a.toWord, b.toWord, c.toWord]
  | .gt a b c => [5, a.toWord, b.toWord, c.toWord]
  | .jmp a => [6, a.toWord]
  | .jt a b => [7, a.toWord, b.toWord]
  | .jf a b => [8, a.toWord, b.toWord]
  | .add a b c => [9, a.toWord, b.toWord, c.toWord]
  | .mult a b c => [10, a.toWord, b.toWord, c.toWord]
  | .mod a b c => [11, a.toWord, b.toWord, c.toWord]
  | .and a b c => [12, a.toWord, b.toWord, c.toWord]
  | .or a b c => [13, a.toWord, b.toWord, c.toWord]
  | .not a b => [14, a.toWord, b.toWord]
  | .rmem a b => [15, a.toWord, b.toWord]
  | .wmem a b => [16, a.toWord, b.toWord]
  | .call a => [17, a.toWord]
  | .ret => [18]
  | .out a => [19, a.toWord]
  | .inp a => [20, a.toWord]
  | .noop => [21]

/-- The four words of a number that holds an instruction as the opcode table numbers bits: bit 0 is
the least bit of the first word; the bits from `nbits` on are 0. -/
def tableWords (nbits w : Nat) : List Word :=
  [BitVec.ofNat 16 (w % 2 ^ nbits),
    BitVec.ofNat 16 (w % 2 ^ nbits / 2 ^ 16),
    BitVec.ofNat 16 (w % 2 ^ nbits / 2 ^ 32),
    BitVec.ofNat 16 (w % 2 ^ nbits / 2 ^ 48)]

/-- The instruction the decoder reads from the `nbits` bits `w`, later bits 0; `none` where it
refuses. -/
def decodeTableWord (nbits w : Nat) : Option Instr :=
  match decode (tableWords nbits w) with
  | .ok (i, _) => some i
  | .error _ => none

end Sys2Proof
end

