-- ==== Sys2Proof/Machine/Fetch.lean ====
section
/-!
DEFINITION. Instruction fetch (spec 30_encoding.md R58, R60; 10_state.md R23).
-/

namespace Sys2Proof.Machine

/-- The words from `pc` on that an instruction may have: at most the longest length, and none at an
address of 32768 or more (R23, R34, R48). -/
def State.fetchWindow (s : State) : List Word :=
  (List.range (min Config.maxLength (Config.memWords - s.pc.toNat))).map
    (fun k => s.mem.read (s.pc.toNat + k))

/-- The instruction at `pc`, or the error the fetch raises with its information word, in the order of
R60 items 1 to 4. A word that is not there lies at an address of 32768 or more. -/
def State.fetch (s : State) : Except (ErrorClass × Word) Instr :=
  match decode s.fetchWindow with
  | .ok (i, _) => .ok i
  | .error .noWord => .error (.addressOutOfRange, s.pc)
  | .error (.unknownOpcode w) => .error (.unknownOpcode, w)
  | .error (.missingOperand k) => .error (.addressOutOfRange, s.pc + BitVec.ofNat 16 k)
  | .error (.invalidOperand w) => .error (.invalidOperand, w)

/-- The fetch, and then the instruction's rule or the error it raised (R58, R87). -/
def State.fetchThen (rule : Instr → State → Result) (s : State) : Result :=
  match s.fetch with
  | .ok i => rule i s
  | .error (e, v) => .next (s.raise e v)

end Sys2Proof.Machine
end

