-- ==== Sys2Proof/Machine/Step.lean ====
section
/-!
DEFINITION. One step of the block (spec 30_encoding.md R58), and an instruction placed where the next
step fetches.
-/

namespace Sys2Proof.Machine

/-- One step: an instruction or the error that ends it (R9, R58). HALTED and ERRORED are final and
have no successor (R22). -/
def step (s : State) : Host.Outcome State Fault Refusal :=
  match s.run with
  | .halted => .fault .finalHalted
  | .errored => .fault .finalErrored
  | .running => s.fetchThen exec

/-- `s` with an instruction of the opcode table stored at `pc` and the three words after it, as the
image load stores words (R42). Log entry 6. -/
def State.withFetchWord (s : State) (nbits w : Nat) : State :=
  s.loadWords s.pc.toNat (tableWords nbits w)

end Sys2Proof.Machine
end

