-- ==== Sys2Proof/Machine/Ports.lean ====
section
/-!
DEFINITION. The block behind its ports (spec 10_state.md R30 to R32, 70_reset_and_hazards.md R100 to
R102, 20_memory.md R42), at the granularity of one host action: there is no clock (R107). The hold of an
OUT for `out_ready` is not represented, as R95 says.
-/

namespace Sys2Proof.Machine

/-- The state reset leaves (R29, R100, R102). The parameter `STACK_CAPACITY` is no state of the block
and stays. What the host offers after a reset it says anew, with `HostAction.offer` (log entry 3). -/
def State.afterReset (s : State) : State := { State.reset with stackCapacity := s.stackCapacity }

/-- The Loader's one contract (R36): word i of the image is `byte[2i] + 256 * byte[2i+1]`. An odd
trailing byte is not in the source, and gives no image (log entry 8). -/
def imageOfBytes : List (BitVec 8) → Option (List Word)
  | [] => some []
  | [_] => none
  | lo :: hi :: rest =>
    match imageOfBytes rest with
    | none => none
    | some words => some (BitVec.ofNat 16 (lo.toNat + 256 * hi.toNat) :: words)

/-- A machine constructed with an image (R42, R29): refused when the image has more than 32768 words
(U1). -/
def State.boot (capacity : Option Nat) (input : List Code) (image : List Word) : Result :=
  if image.length ≤ Config.memWords then
    .next (State.loadWords { State.reset with stackCapacity := capacity, hostInput := input } 0 image)
  else .refused .imageTooLong

/-- The block at its pins: the levels of `rst` and `step_en` (R31), whether an IN has started and waits
for its line (R85, R96, R99), and the state. A started IN is no state of 10_state.md: nothing of it has
happened yet (R85), but it decides when the block asks for a line and that the line completes it. -/
structure Block where
  rst : Bool
  stepEn : Bool
  inStarted : Bool
  core : State
  deriving DecidableEq, Repr

/-- What happens at the ports (R31), one thing at a time (R107: no clock). -/
inductive HostAction
  /-- `rst` rises (R100). -/
  | assertReset
  /-- `load_we` with `load_addr` and `load_data` (R101). -/
  | load (addr : Value) (data : Word)
  /-- `rst` falls (R100). -/
  | releaseReset
  /-- The host drives `step_en` to a level (R31, R91). -/
  | setStepEn (level : Bool)
  /-- Time passes in which the block may start one instruction: it does if `step_en` is high (R31,
  R100). A pulse of `step_en` is high, proceed, low; held high, the block runs. -/
  | proceed
  /-- The host gets more codes to offer on the input channel (R96). -/
  | offer (codes : List Code)
  deriving DecidableEq, Repr

/-- A step request: in a terminal state and in IN's wait it does nothing (R22, R99). -/
def State.request (s : State) : State :=
  match step s with
  | .next t => t
  | .fault _ => s
  | .refused _ => s

/-- `run`: step repeatedly until the run state is no longer RUNNING (R3, R22, R58), here for at most
`fuel` steps. In IN's wait it stays where it is (R99). -/
def State.runFor : Nat → State → State
  | 0, s => s
  | fuel + 1, s => if s.run = .running then s.request.runFor fuel else s

/-- A started IN waits for its line; in reset nothing is in progress (R85, R99, R100). -/
def Block.inWait (b : Block) : Bool := !b.rst && b.inStarted

/-- The block starts the instruction at pc. An IN that finds no line starts and waits; in a terminal
state nothing starts (R22, R58, R85). -/
def Block.start (b : Block) : Block :=
  match step b.core with
  | .next t => { b with core := t }
  | .fault .inputWait => { b with inStarted := true }
  | .fault .finalHalted => b
  | .fault .finalErrored => b
  | .refused _ => b

/-- A started IN goes on: it completes when its line is there, whatever the level of `step_en`, and
else it still waits (R85, R96, R99). -/
def Block.resume (b : Block) : Block :=
  match step b.core with
  | .next t => { b with inStarted := false, core := t }
  | .fault _ => b
  | .refused _ => b

/-- The effect of one host action on the block. -/
def Block.act (b : Block) : HostAction → Block
  | .assertReset => { b with rst := true, inStarted := false, core := b.core.afterReset }
  | .load addr data =>
    if b.rst then { b with core := b.core.loadWord addr.toNat data } else b
  | .releaseReset => { b with rst := false }
  | .setStepEn level => { b with stepEn := level }
  | .proceed =>
    if b.rst then b else if b.inStarted then b else if b.stepEn then b.start else b
  | .offer codes =>
    let c := { b with core := { b.core with hostInput := b.core.hostInput ++ codes } }
    if b.inWait then c.resume else c

/-- The output ports between host actions (R31). `out_valid` is low there: each OUT is offered and taken
inside its own step (R84, R95), and `Block.outCodes` gives what an action offered. The block takes codes
while it asks for a line (R96). -/
structure PortOutputs where
  runState : BitVec 2
  errCode : BitVec 3
  errValue : Word
  pcOut : Word
  inLineReq : Bool
  inReady : Bool
  outValid : Bool
  deriving DecidableEq, Repr

/-- The instruction at pc is an IN that finds no line (R85, R99). -/
def State.waitsForLine (s : State) : Bool :=
  match step s with
  | .fault .inputWait => true
  | .fault .finalHalted => false
  | .fault .finalErrored => false
  | .next _ => false
  | .refused _ => false

/-- What the output ports show (R21, R24, R31, R100). The block asks for a line only while an IN that
has started waits for it (R85, R96). -/
def Block.outputs (b : Block) : PortOutputs where
  runState := b.core.run.code
  errCode := b.core.errCode.code
  errValue := b.core.errValue
  pcOut := b.core.pc
  inLineReq := b.inWait
  inReady := b.inWait
  outValid := false

/-- The codes a step offered on `out_data`, in order (R84, R95). -/
def State.emittedSince (before after : State) : List Code :=
  after.outStream.drop before.outStream.length

/-- The codes offered on `out_data` with `out_valid` high during a host action, in order. -/
def Block.outCodes (b : Block) (x : HostAction) : List Code := State.emittedSince b.core (b.act x).core

end Sys2Proof.Machine
end

