-- ==== Sys2Proof/Safety.lean ====
section
/-!
DEFINITION. The terms the statements use: what a destination holds, what an instruction leaves unchanged,
the invariant of the block, and what counts as a safe run.
-/

namespace Sys2Proof.Machine

/-! ### Outcomes -/

/-- The next state, where there is one. -/
def nextOf : Result → Option State
  | .next t => some t
  | .fault _ => none
  | .refused _ => none

/-- The reason the model stops, where it does. -/
def faultOf : Result → Option Fault
  | .next _ => none
  | .fault f => some f
  | .refused _ => none

/-- A run is safe as long as its run state is not ERRORED (60_exceptions.md R87). -/
def State.safe (s : State) : Prop := s.run ≠ .errored

/-! ### Frames -/

/-- What the target of a destination operand holds, as a number: the register's contents or the
memory cell's word (R53). -/
def State.destNat (s : State) : Operand → Nat
  | .reg r => (s.getReg r).toNat
  | .lit n => (s.memRead n).toNat

/-- Everything but pc, registers and memory is the same. -/
structure SameRest (s t : State) : Prop where
  stack : t.stack = s.stack
  run : t.run = s.run
  errCode : t.errCode = s.errCode
  errValue : t.errValue = s.errValue
  inBuf : t.inBuf = s.inBuf
  outStream : t.outStream = s.outStream
  inStream : t.inStream = s.inStream
  lineTrace : t.lineTrace = s.lineTrace
  stackCapacity : t.stackCapacity = s.stackCapacity
  hostInput : t.hostInput = s.hostInput

/-- Every register but the destination, every memory word but the destination, and everything else
but the pc are the same: the frame of an instruction whose destination operand is `a`. -/
structure DestFrame (a : Operand) (s t : State) : Prop where
  regs : ∀ r, a ≠ .reg r → t.getReg r = s.getReg r
  mem : ∀ n, a ≠ .lit n → t.memRead n = s.memRead n
  rest : SameRest s t

/-- From `s` to `t` the destination `a` takes the number `v`, the pc advances by `len`, and nothing
else changes. -/
structure WritesDest (a : Operand) (v len : Nat) (s t : State) : Prop where
  value : t.destNat a = v
  pc : t.pc = s.pc + BitVec.ofNat 16 len
  frame : DestFrame a s t

/-- The address an instruction stores a word to: a literal destination is the address itself (R53);
WMEM's address is its read-resolved first operand (R54, R81); no other instruction stores (R34). -/
def storeAddr (i : Instr) (s : State) : Option Value :=
  match i with
  | .wmem a _ => some (s.readOp a)
  | .halt | .push _ | .jmp _ | .jt _ _ | .jf _ _ | .call _ | .ret | .out _ | .noop => none
  | .set a _ | .pop a | .eq a _ _ | .gt a _ _ | .add a _ _ | .mult a _ _ | .mod a _ _
  | .and a _ _ | .or a _ _ | .not a _ | .rmem a _ | .inp a =>
    match a with
    | .lit n => some n
    | .reg _ => none

/-- A state without the traces and the error record, which no instruction reads (R24, R26, R28). -/
def State.eraseTraces (s : State) : State :=
  { s with outStream := [], inStream := [], lineTrace := [], errCode := .noError, errValue := 0 }

/-! ### Invariant -/

/-- One line or the rest of one: it ends in the terminator, which stands nowhere else in it (R25,
R96). -/
def LineTail (codes : List Code) : Prop :=
  ∃ body, codes = body ++ [Config.lineTerminator] ∧ Config.lineTerminator ∉ body

/-- What holds of the block at reset and after every step. -/
structure State.Inv (s : State) : Prop where
  /-- Memory is in its canonical form, within addresses 0..32767 (R34). -/
  memory : s.mem.wf = true
  /-- The pc is at most 32768 (R20, R23, R83). -/
  pcBound : s.pc.toNat ≤ 32768
  /-- A stack entry is at most 32768 (R14, R82). -/
  entries : ∀ v ∈ s.stack, v.toNat ≤ 32768
  /-- The depth is within the bound, where there is one (R16). -/
  depth : ∀ c, s.stackCapacity = some c → s.stack.length ≤ c
  /-- Outside ERRORED the error record is clear (R24, R90). -/
  clear : s.run ≠ .errored → s.errCode = .noError ∧ s.errValue = 0
  /-- In ERRORED it names an error (R24, R88). -/
  named : s.run = .errored → s.errCode ≠ .noError
  /-- The input buffer holds at most one line (R25). -/
  buffer : s.inBuf = [] ∨ LineTail s.inBuf
  /-- The consumed codes and the buffered ones are, in order, the lines requested (R26, R85). -/
  consumed : s.inStream ++ s.inBuf = s.lineTrace.flatten

/-- What holds of the block at its pins after every host action. -/
structure Block.Inv (b : Block) : Prop where
  core : b.core.Inv
  /-- A started IN is the instruction at pc, and has no line yet (R85, R99). -/
  started : b.inStarted = true → b.core.waitsForLine = true
  /-- In reset nothing is in progress (R100). -/
  inReset : b.rst = true → b.inStarted = false

end Sys2Proof.Machine
end

