-- ==== Sys2Proof/Certificates/Slice0/Obligations.lean ====
section
/-!
DEFINITION. The statements about the model, by the numbered rules of spec/. "Derived" in a docstring means
that the rule rests on a decision the spec marks as its own (92_eei_decisions.md D<n>).
-/

open Sys2Proof Sys2Proof.Machine

/-! ### Reset and the invariant -/

/-- R29 (derived: D10, D14, D17): what reset leaves, in the machine with no image loaded. -/
def Obligations.ResetLeavesTheTableOfR29 : Prop :=
  (∀ r, State.reset.getReg r = 0) ∧ (∀ a, State.reset.memRead a = 0) ∧
    State.reset.stack = [] ∧ State.reset.pc = 0 ∧ State.reset.run = .running ∧
    State.reset.errCode.code = 0 ∧ State.reset.errValue = 0 ∧ State.reset.inBuf = [] ∧
    State.reset.outStream = [] ∧ State.reset.inStream = []

/-- The invariant holds at reset (R29). Its clause on `lineTrace` rests on log entry 4. -/
def Obligations.ResetMeetsTheBlockInvariant : Prop := State.reset.Inv

/-- Every step keeps the invariant: canonical memory, pc and stack entries at most 32768, depth within
`STACK_CAPACITY`, a clear error record outside ERRORED and a named error in it, at most one line
buffered, consumed and buffered codes the requested lines in order. -/
def Obligations.EveryStepKeepsTheBlockInvariant : Prop :=
  ∀ s t : State, s.Inv → step s = .next t → t.Inv

/-- Every host action at the ports keeps the invariant of the state (R30, R100, R101), and with it that
a started IN is the instruction at pc without a line, and that nothing is in progress in reset. -/
def Obligations.EveryHostActionKeepsTheBlockInvariant : Prop :=
  ∀ (b : Block) (x : HostAction),
    (b.core.Inv → (b.act x).core.Inv) ∧ (b.Inv → (b.act x).Inv)

/-! ### Decoding and the step -/

/-- The decoder reads back every instruction the encoder writes, whatever words follow. -/
def Obligations.DecodeReadsEveryEncodedInstruction : Prop :=
  ∀ (i : Instr) (rest : List Word), decode (encode i ++ rest) = .ok (i, rest)

/-- The encoder writes back exactly the words the decoder took: each instruction has one encoding. -/
def Obligations.EncodeWritesTheDecodedWords : Prop :=
  ∀ (ws : List Word) (i : Instr) (rest : List Word),
    decode ws = .ok (i, rest) → ws = encode i ++ rest

/-- The decoder accepts exactly the well-formed words: R48's length, R51's operand classes, R56's
opcodes. -/
def Obligations.DecodeAcceptsExactlyTheWellFormedWords : Prop :=
  ∀ ws : List Word, wordsWellFormed ws = true ↔ ∃ i, decode ws = .ok (i, [])

/-- Words written out from the opcode map (R49) and the examples of R63 to R85 decode to their
instructions. -/
def Obligations.WrittenOutWordsDecodeToTheirInstructions : Prop :=
  decode [0] = .ok (.halt, []) ∧
    decode [1, 32768, 42] = .ok (.set (.reg 0) (.lit 42), []) ∧
    decode [3, 32769] = .ok (.pop (.reg 1), []) ∧
    decode [4, 32769, 32768, 10] = .ok (.eq (.reg 1) (.reg 0) (.lit 10), []) ∧
    decode [7, 32768, 3] = .ok (.jt (.reg 0) (.lit 3), []) ∧
    decode [9, 32768, 32769, 4] = .ok (.add (.reg 0) (.reg 1) (.lit 4), []) ∧
    decode [15, 32770, 100] = .ok (.rmem (.reg 2) (.lit 100), []) ∧
    decode [17, 5] = .ok (.call (.lit 5), []) ∧
    decode [20, 32775] = .ok (.inp (.reg 7), [])

/-- R51, R52 (the source's property A5): a word below 32768 reads as itself, 32768 + r reads register
r, and a word from 32776 on is no operand. -/
def Obligations.OperandWordsReadAsTheirClass : Prop :=
  ∀ (w : Word) (s : State),
    (w.toNat < 32768 → ∃ o, operandOfWord w = some o ∧ (s.readOp o).toNat = w.toNat) ∧
    (∀ r : Reg, w.toNat = 32768 + r.val →
      ∃ o, operandOfWord w = some o ∧ s.readOp o = s.getReg r) ∧
    (32776 ≤ w.toNat → operandOfWord w = none)

/-- A step in RUNNING executes the instruction its words decode to, on that very state (R58). -/
def Obligations.StepExecutesTheDecodedInstruction : Prop :=
  ∀ (s : State) (i : Instr) (rest : List Word),
    s.run = .running → decode s.fetchWindow = .ok (i, rest) → step s = exec i s

/-- When the words of an instruction stand in memory at `pc`, the step executes it (R48, R58). -/
def Obligations.StepExecutesTheInstructionStoredAtPc : Prop :=
  ∀ (s : State) (i : Instr), s.run = .running →
    s.pc.toNat + (encode i).length ≤ 32768 →
    (∀ (k : Nat) (h : k < (encode i).length), s.mem.read (s.pc.toNat + k) = (encode i)[k]) →
    step s = exec i s

/-- The errors a fetch raises, in the order of R60 items 1 to 4 (derived: D5, D6, D8): the opcode
fetch out of range, an unknown opcode, the least operand fetch out of range (which is the one at
32768), the first invalid operand word. -/
def Obligations.FetchErrorsAreRaisedInOrder : Prop :=
  ∀ s : State, s.run = .running →
    (32768 ≤ s.pc.toNat → step s = .next (s.raise .addressOutOfRange s.pc)) ∧
    (s.pc.toNat < 32768 → 22 ≤ (s.mem.read s.pc.toNat).toNat →
      step s = .next (s.raise .unknownOpcode (s.mem.read s.pc.toNat))) ∧
    (∀ n, s.pc.toNat < 32768 → operandCounts[(s.mem.read s.pc.toNat).toNat]? = some n →
      32768 ≤ s.pc.toNat + n → step s = .next (s.raise .addressOutOfRange 32768)) ∧
    (∀ n k, operandCounts[(s.mem.read s.pc.toNat).toNat]? = some n →
      s.pc.toNat + n < 32768 → 1 ≤ k → k ≤ n →
      (∀ j, 1 ≤ j → j < k → (s.mem.read (s.pc.toNat + j)).toNat < 32776) →
      32776 ≤ (s.mem.read (s.pc.toNat + k)).toNat →
      step s = .next (s.raise .invalidOperand (s.mem.read (s.pc.toNat + k))))

/-- HALTED and ERRORED are final: no step leaves them (R22). -/
def Obligations.TerminalStatesHaveNoStep : Prop :=
  ∀ s : State, (s.run = .halted → step s = .fault .finalHalted) ∧
    (s.run = .errored → step s = .fault .finalErrored)

/-! ### HALT, SET, PUSH, POP -/

/-- R63: HALT sets the run state, advances the pc by 1 and changes nothing else. That no step follows
is R22 (derived: D22), in the form of log entry 7. -/
def Obligations.HaltStopsTheMachine : Prop :=
  ∀ s : State, encode .halt = [0] ∧
    ∃ t, exec .halt s = .next t ∧ t = { s with run := .halted, pc := s.pc + 1 } ∧
    step t = .fault .finalHalted

/-- R64: SET writes the read value to its destination, register or memory cell. -/
def Obligations.SetWritesTheReadValue : Prop :=
  ∀ (a b : Operand) (s : State), encode (.set a b) = [1, a.toWord, b.toWord] ∧
    ∃ t, exec (.set a b) s = .next t ∧
    WritesDest a (s.readOp b).toNat 3 s t

/-- R65, R17 (derived: D12): PUSH puts the read value on top; on a full bounded stack it raises
StackOverflow(0). -/
def Obligations.PushPutsTheReadValueOnTop : Prop :=
  ∀ (a : Operand) (s : State),
    encode (.push a) = [2, a.toWord] ∧
    (s.stackCapacity ≠ some s.stack.length → ∃ t v, exec (.push a) s = .next t ∧
      v.toNat = (s.readOp a).toNat ∧ t = { s with stack := v :: s.stack, pc := s.pc + 2 }) ∧
    (s.stackCapacity = some s.stack.length →
      exec (.push a) s = .next (s.raise .stackOverflow 0))

/-- R66 (derived: D3): POP takes the top entry off and writes it, mod 32768, to its destination. -/
def Obligations.PopWritesTheTopEntry : Prop :=
  ∀ (a : Operand) (s : State) (v : Word) (rest : List Word), s.stack = v :: rest →
    encode (.pop a) = [3, a.toWord] ∧
    ∃ t, exec (.pop a) s = .next t ∧ WritesDest a (v.toNat % 32768) 2 { s with stack := rest } t

/-- R66: POP of an empty stack raises StackUnderflow(0) and changes nothing but run state and error
record. -/
def Obligations.PopOfEmptyStackUnderflows : Prop :=
  ∀ (a : Operand) (s : State), s.stack = [] →
    exec (.pop a) s =
      .next { s with run := .errored, errCode := .stackUnderflow, errValue := 0 }

/-- The source's property in R65: PUSH and then POP into a register gives the register the pushed
value and leaves the stack as it was. -/
def Obligations.PushThenPopMovesTheValue : Prop :=
  ∀ (a : Operand) (r : Reg) (s : State), s.stackCapacity ≠ some s.stack.length →
    ∃ t u, exec (.push a) s = .next t ∧ exec (.pop (.reg r)) t = .next u ∧
      u.getReg r = s.readOp a ∧ u.stack = s.stack

/-! ### EQ, GT -/

/-- R67: EQ writes 1 or 0. -/
def Obligations.EqWritesOneOrZero : Prop :=
  ∀ (a b c : Operand) (s : State), encode (.eq a b c) = [4, a.toWord, b.toWord, c.toWord] ∧
    ∃ t, exec (.eq a b c) s = .next t ∧
    WritesDest a (if (s.readOp b).toNat = (s.readOp c).toNat then 1 else 0) 4 s t

/-- R68: GT compares unsigned and strictly and writes 1 or 0. -/
def Obligations.GtWritesOneOrZero : Prop :=
  ∀ (a b c : Operand) (s : State), encode (.gt a b c) = [5, a.toWord, b.toWord, c.toWord] ∧
    ∃ t, exec (.gt a b c) s = .next t ∧
    WritesDest a (if (s.readOp b).toNat > (s.readOp c).toNat then 1 else 0) 4 s t

/-! ### JMP, JT, JF -/

/-- R69: JMP sets the pc to the read value and changes nothing else. -/
def Obligations.JmpSetsThePc : Prop :=
  ∀ (a : Operand) (s : State), encode (.jmp a) = [6, a.toWord] ∧
    ∃ t, exec (.jmp a) s = .next t ∧
    t.pc.toNat = (s.readOp a).toNat ∧ t = { s with pc := t.pc }

/-- R70, R71: JT jumps exactly when the tested value is not 0, JF exactly when it is 0; else the pc
advances by 3; nothing else changes. -/
def Obligations.ConditionalJumpsTestForZero : Prop :=
  ∀ (a b : Operand) (s : State),
    encode (.jt a b) = [7, a.toWord, b.toWord] ∧
    encode (.jf a b) = [8, a.toWord, b.toWord] ∧
    (∃ t, exec (.jt a b) s = .next t ∧ t = { s with pc := t.pc } ∧
      (if (s.readOp a).toNat = 0 then t.pc = s.pc + 3
        else t.pc.toNat = (s.readOp b).toNat)) ∧
    (∃ t, exec (.jf a b) s = .next t ∧ t = { s with pc := t.pc } ∧
      (if (s.readOp a).toNat = 0 then t.pc.toNat = (s.readOp b).toNat
        else t.pc = s.pc + 3))

/-! ### ALU -/

/-- R73: ADD writes the exact sum mod 32768. -/
def Obligations.AddWritesTheSumMod32768 : Prop :=
  ∀ (a b c : Operand) (s : State), encode (.add a b c) = [9, a.toWord, b.toWord, c.toWord] ∧
    ∃ t, exec (.add a b c) s = .next t ∧
    WritesDest a (((s.readOp b).toNat + (s.readOp c).toNat) % 32768) 4 s t

/-- R74: MULT writes the exact product mod 32768. -/
def Obligations.MultWritesTheProductMod32768 : Prop :=
  ∀ (a b c : Operand) (s : State), encode (.mult a b c) = [10, a.toWord, b.toWord, c.toWord] ∧
    ∃ t, exec (.mult a b c) s = .next t ∧
    WritesDest a (((s.readOp b).toNat * (s.readOp c).toNat) % 32768) 4 s t

/-- R75 (derived: D7): MOD writes the remainder; the divisor 0 raises DivisionByZero(0). -/
def Obligations.ModWritesTheRemainderOrDividesByZero : Prop :=
  ∀ (a b c : Operand) (s : State),
    encode (.mod a b c) = [11, a.toWord, b.toWord, c.toWord] ∧
    ((s.readOp c).toNat ≠ 0 → ∃ t, exec (.mod a b c) s = .next t ∧
      WritesDest a ((s.readOp b).toNat % (s.readOp c).toNat) 4 s t) ∧
    ((s.readOp c).toNat = 0 → exec (.mod a b c) s =
      .next { s with run := .errored, errCode := .divisionByZero, errValue := 0 })

/-- R76, R77: AND and OR act bit by bit. -/
def Obligations.AndOrActBitByBit : Prop :=
  ∀ (a b c : Operand) (s : State),
    encode (.and a b c) = [12, a.toWord, b.toWord, c.toWord] ∧
    encode (.or a b c) = [13, a.toWord, b.toWord, c.toWord] ∧
    (∃ t, exec (.and a b c) s = .next t ∧
      WritesDest a ((s.readOp b).toNat &&& (s.readOp c).toNat) 4 s t) ∧
    (∃ t, exec (.or a b c) s = .next t ∧
      WritesDest a ((s.readOp b).toNat ||| (s.readOp c).toNat) 4 s t)

/-- R78: NOT writes 32767 - b, the 15-bit complement. -/
def Obligations.NotWritesTheFifteenBitComplement : Prop :=
  ∀ (a b : Operand) (s : State), encode (.not a b) = [14, a.toWord, b.toWord] ∧
    ∃ t, exec (.not a b) s = .next t ∧
    WritesDest a (32767 - (s.readOp b).toNat) 3 s t

/-- R78's property: NOT twice gives a register its old value back. -/
def Obligations.NotTwiceRestoresTheRegister : Prop :=
  ∀ (r : Reg) (s : State), ∃ t u, exec (.not (.reg r) (.reg r)) s = .next t ∧
    exec (.not (.reg r) (.reg r)) t = .next u ∧ u.getReg r = s.getReg r

/-- R72's idiom for subtraction, run as three instructions: NOT d c; ADD d d 1; ADD d b d. The
minuend must not be d itself, which the first instruction overwrites. -/
def Obligations.NotAddAddSubtracts : Prop :=
  ∀ (d : Reg) (b c : Operand) (s : State), b ≠ .reg d →
    ∃ t u w, exec (.not (.reg d) c) s = .next t ∧
      exec (.add (.reg d) (.reg d) (.lit 1)) t = .next u ∧
      exec (.add (.reg d) b (.reg d)) u = .next w ∧
      (w.getReg d).toNat = ((s.readOp b).toNat + 32768 - (s.readOp c).toNat) % 32768

/-! ### RMEM, WMEM -/

/-- R80 (derived: D3, D4): RMEM writes the word at the read address, mod 32768. -/
def Obligations.RmemWritesTheMemoryWordReduced : Prop :=
  ∀ (a b : Operand) (s : State), encode (.rmem a b) = [15, a.toWord, b.toWord] ∧
    ∃ t, exec (.rmem a b) s = .next t ∧
    WritesDest a ((s.memRead (s.readOp b)).toNat % 32768) 3 s t

/-- R81, R54: WMEM writes the read value to the cell at the read address; no register and no other
cell changes. -/
def Obligations.WmemWritesTheAddressedWord : Prop :=
  ∀ (a b : Operand) (s : State), encode (.wmem a b) = [16, a.toWord, b.toWord] ∧
    ∃ t, exec (.wmem a b) s = .next t ∧
    (t.memRead (s.readOp a)).toNat = (s.readOp b).toNat ∧
    (∀ n, n ≠ s.readOp a → t.memRead n = s.memRead n) ∧
    (∀ r, t.getReg r = s.getReg r) ∧ t.pc = s.pc + 3 ∧ SameRest s t

/-- R47, R81: a WMEM that writes 0 (HALT) over the next instruction's first word makes the very next
step a HALT. -/
def Obligations.WmemIsSeenByTheNextFetch : Prop :=
  ∀ s : State, s.run = .running → s.pc.toNat + 3 < 32768 →
    ∃ t, exec (.wmem (.lit (BitVec.ofNat 15 (s.pc.toNat + 3))) (.lit 0)) s = .next t ∧
      step t = .next { t with run := .halted, pc := t.pc + 1 }

/-! ### CALL, RET -/

/-- R82, R17 (derived: D12, D13): CALL pushes pc + 2 unreduced and sets the pc to the read value; on a
full bounded stack it raises StackOverflow(0). -/
def Obligations.CallPushesTheReturnAddress : Prop :=
  ∀ (a : Operand) (s : State),
    encode (.call a) = [17, a.toWord] ∧
    (s.stackCapacity ≠ some s.stack.length → ∃ t, exec (.call a) s = .next t ∧
      t.pc.toNat = (s.readOp a).toNat ∧
      t = { s with stack := (s.pc + 2) :: s.stack, pc := t.pc }) ∧
    (s.stackCapacity = some s.stack.length →
      exec (.call a) s = .next (s.raise .stackOverflow 0))

/-- R83 (derived: D9 for the pc of the empty stack): RET sets the pc to the popped entry, unreduced;
on an empty stack it halts, which is no error, and the pc advances by 1. -/
def Obligations.RetPopsIntoThePcOrHalts : Prop :=
  ∀ s : State,
    encode .ret = [18] ∧
    (∀ v rest, s.stack = v :: rest → ∃ t, exec .ret s = .next t ∧
      t = { s with stack := rest, pc := v }) ∧
    (s.stack = [] → exec .ret s = .next { s with run := .halted, pc := s.pc + 1 })

/-- The source's property in R82 and R83: a RET that finds the stack as the CALL left it resumes after
the CALL. The states between are any that keep the stack. -/
def Obligations.CallThenRetResumesAfterTheCall : Prop :=
  ∀ (a : Operand) (s t m : State), s.stackCapacity ≠ some s.stack.length →
    exec (.call a) s = .next t → m.stack = t.stack →
    ∃ u, exec .ret m = .next u ∧ u.pc = s.pc + 2 ∧ u.stack = s.stack

/-! ### OUT, IN, NOOP -/

/-- R84: OUT appends exactly one code, the low byte of the read value, to the output stream. -/
def Obligations.OutEmitsTheLowByte : Prop :=
  ∀ (a : Operand) (s : State), encode (.out a) = [19, a.toWord] ∧
    ∃ t c, exec (.out a) s = .next t ∧
    c.toNat = (s.readOp a).toNat % 256 ∧
    t = { s with outStream := s.outStream ++ [c], pc := s.pc + 2 }

/-- R85: IN with codes in the buffer takes the oldest one and asks the host for nothing. -/
def Obligations.InTakesTheOldestBufferedCode : Prop :=
  ∀ (a : Operand) (s : State) (c : Code) (rest : List Code), s.inBuf = c :: rest →
    encode (.inp a) = [20, a.toWord] ∧
    ∃ t, exec (.inp a) s = .next t ∧
      WritesDest a c.toNat 2 { s with inBuf := rest, inStream := s.inStream ++ [c] } t

/-- R85, R96 (derived: D4, D14): IN with an empty buffer takes one whole line of the host, its
terminator included, and completes with the line's first code. -/
def Obligations.InRequestsOneLineWhenTheBufferIsEmpty : Prop :=
  ∀ (a : Operand) (s : State) (body after : List Code) (c : Code) (rest : List Code),
    s.inBuf = [] → Config.lineTerminator ∉ body →
    s.hostInput = body ++ Config.lineTerminator :: after →
    body ++ [Config.lineTerminator] = c :: rest →
    ∃ t, exec (.inp a) s = .next t ∧
      WritesDest a c.toNat 2
        { s with inBuf := rest, hostInput := after, inStream := s.inStream ++ [c],
                 lineTrace := s.lineTrace ++ [body ++ [Config.lineTerminator]] } t

/-- R85, R99 (derived: D14): IN with an empty buffer and no complete line to come has no step. -/
def Obligations.InWaitsWithoutALine : Prop :=
  ∀ (a : Operand) (s : State), s.inBuf = [] → Config.lineTerminator ∉ s.hostInput →
    exec (.inp a) s = .fault .inputWait

/-- R86: NOOP advances the pc by 1 and changes nothing else. -/
def Obligations.NoopOnlyAdvancesThePc : Prop :=
  ∀ s : State, encode .noop = [21] ∧
    ∃ t, exec .noop s = .next t ∧ t = { s with pc := s.pc + 1 }

/-! ### Rules of the whole machine -/

/-- R15: an instruction changes no register but the one its destination operand names. -/
def Obligations.OnlyTheDestinationRegisterChanges : Prop :=
  ∀ (i : Instr) (s t : State), exec i s = .next t →
    ∀ r, i.dest ≠ some (.reg r) → t.getReg r = s.getReg r

/-- R34, R11: an instruction changes no memory word but the one at its store address, and a word it
changes becomes a value below 32768. -/
def Obligations.OnlyTheStoreAddressChanges : Prop :=
  ∀ (i : Instr) (s t : State), exec i s = .next t →
    (∀ n, storeAddr i s ≠ some n → t.memRead n = s.memRead n) ∧
    (∀ n, t.memRead n ≠ s.memRead n → (t.memRead n).toNat < 32768)

/-- R18: only PUSH and CALL push, one entry, and only POP and RET pop, one entry; every entry below
stays. The bound on the depth never changes (R5). -/
def Obligations.OnlyTheStackInstructionsChangeTheStack : Prop :=
  ∀ (i : Instr) (s t : State), exec i s = .next t →
    t.stackCapacity = s.stackCapacity ∧
    (t.stack = s.stack ∨
      (∃ a v, i = .push a ∧ t.stack = v :: s.stack) ∨
      (∃ a, i = .call a ∧ t.stack = (s.pc + 2) :: s.stack) ∨
      (∃ a v, i = .pop a ∧ s.stack = v :: t.stack) ∨
      (i = .ret ∧ s.stack = t.pc :: t.stack))

/-- R87, R93 (derived: D10 for the record): a step that ends in ERRORED changes the run state and the
error record and nothing else, and names an error. -/
def Obligations.ErrorsArePrecise : Prop :=
  ∀ s t : State, step s = .next t → t.run = .errored →
    t.errCode ≠ .noError ∧
    t = { s with run := .errored, errCode := t.errCode, errValue := t.errValue }

/-- R88 (derived: D7, D12): the errors instructions raise of their own, each with its one cause and
information word 0. -/
def Obligations.InstructionErrorsHaveTheirOneCause : Prop :=
  ∀ (i : Instr) (s t : State), s.safe → exec i s = .next t → ¬ t.safe →
    t.errValue = 0 ∧
    ((∃ a, i = .pop a ∧ s.stack = [] ∧ t.errCode = .stackUnderflow) ∨
      (∃ a b c, i = .mod a b c ∧ s.readOp c = 0 ∧ t.errCode = .divisionByZero) ∨
      (∃ a, i = .push a ∧ s.stackCapacity = some s.stack.length ∧ t.errCode = .stackOverflow) ∨
      (∃ a, i = .call a ∧ s.stackCapacity = some s.stack.length ∧ t.errCode = .stackOverflow))

/-- R21, R90: a step reaches HALTED only by HALT or by RET on an empty stack, and then only the run
state and the pc (by 1) change. -/
def Obligations.OnlyHaltAndEmptyRetHalt : Prop :=
  ∀ s t : State, step s = .next t → t.run = .halted →
    t = { s with run := .halted, pc := s.pc + 1 } ∧
    (s.fetch = .ok .halt ∨ (s.fetch = .ok .ret ∧ s.stack = []))

/-- R99, R107: a RUNNING block always has a next step, but for an IN with an empty buffer and no
complete line to come; no instruction is refused. -/
def Obligations.RunningBlockStepsUnlessInWaits : Prop :=
  ∀ s : State, s.run = .running →
    (∃ t, step s = .next t) ∨
    (step s = .fault .inputWait ∧ (∃ a, s.fetch = .ok (.inp a)) ∧ s.inBuf = [] ∧
      Config.lineTerminator ∉ s.hostInput)

/-- R84, R95: the output stream grows by OUT only, by one code a step, and never loses one. -/
def Obligations.OnlyOutExtendsTheOutputStream : Prop :=
  ∀ s t : State, step s = .next t →
    t.outStream = s.outStream ∨
    (∃ a, s.fetch = .ok (.out a) ∧
      ∃ c : Code, c.toNat = (s.readOp a).toNat % 256 ∧ t.outStream = s.outStream ++ [c])

/-- R25, R26, R85: no step loses, doubles or reorders an input code: consumed, buffered and still to
come stay the same sequence. -/
def Obligations.InputCodesAreKeptInOrder : Prop :=
  ∀ s t : State, step s = .next t →
    t.inStream ++ t.inBuf ++ t.hostInput = s.inStream ++ s.inBuf ++ s.hostInput

/-- R25, R96: a line is requested only by an IN that finds the buffer empty, one line, which ends in
its only terminator; nothing else changes the buffer but an IN. At the ports `in_line_req` rises only
when `step_en` is high, outside reset, and starts such an IN, which finds no line. -/
def Obligations.LinesAreRequestedOnlyByInOnAnEmptyBuffer : Prop :=
  (∀ s t : State, step s = .next t →
    (t.lineTrace ≠ s.lineTrace → s.inBuf = [] ∧ (∃ a, s.fetch = .ok (.inp a)) ∧
      ∃ line, LineTail line ∧ t.lineTrace = s.lineTrace ++ [line]) ∧
    (t.inBuf ≠ s.inBuf → ∃ a, s.fetch = .ok (.inp a))) ∧
  (∀ (b : Block) (x : HostAction), b.Inv →
    b.outputs.inLineReq = false → (b.act x).outputs.inLineReq = true →
    x = .proceed ∧ b.rst = false ∧ b.stepEn = true ∧ (b.act x).core = b.core ∧
      b.core.inBuf = [] ∧ Config.lineTerminator ∉ b.core.hostInput ∧
      ∃ a, b.core.fetch = .ok (.inp a))

/-- R26, R28: the traces and the error record are read by no step: a state without them steps the
same, and raises the same error where it raises one. -/
def Obligations.TracesAndErrorRecordAreNeverRead : Prop :=
  ∀ s : State,
    match step s, step s.eraseTraces with
    | .next t, .next u => u.eraseTraces = t.eraseTraces ∧
        (t.run = .errored → u.errCode = t.errCode ∧ u.errValue = t.errValue)
    | .fault f, .fault g => f = g
    | .refused q, .refused r => q = r
    | _, _ => False

/-! ### The model's memory -/

/-- The canonical form (log entry 2): two memories in it that read the same at every address are the
same data. -/
def Obligations.CanonicalMemoriesThatReadAlikeAreEqual : Prop :=
  ∀ m n : Memory, m.wf = true → n.wf = true → (∀ a, m.read a = n.read a) → m = n

/-! ### The ports -/

/-- R100, R29: reset from any state gives the values of R29, with memory cleared and the pin high; it
ends a wait, `in_line_req` and `out_valid` are low, and they stay low when reset is released. -/
def Obligations.ResetFromAnyStateGivesTheTableOfR29 : Prop :=
  ∀ b : Block, (b.act .assertReset).rst = true ∧
    (b.act .assertReset).inStarted = false ∧
    (b.act .assertReset).outputs.inLineReq = false ∧
    (b.act .assertReset).outputs.outValid = false ∧
    ((b.act .assertReset).act .releaseReset).outputs.inLineReq = false ∧
    (∀ r, (b.act .assertReset).core.getReg r = 0) ∧
    (∀ a, (b.act .assertReset).core.memRead a = 0) ∧
    (b.act .assertReset).core.stack = [] ∧ (b.act .assertReset).core.pc = 0 ∧
    (b.act .assertReset).core.run = .running ∧
    (b.act .assertReset).core.errCode = .noError ∧ (b.act .assertReset).core.errValue = 0 ∧
    (b.act .assertReset).core.inBuf = [] ∧ (b.act .assertReset).core.outStream = [] ∧
    (b.act .assertReset).core.inStream = []

/-- R42, R101: reset, then image words loaded at addresses 0, 1, .., then reset released: memory holds
the image, unreduced, and 0 after it, and the rest is as reset left it. -/
def Obligations.ImageLoadFillsMemoryAndPadsWithZero : Prop :=
  ∀ (b : Block) (image : List Word), image.length ≤ 32768 →
    ∃ c : Block,
      c = (image.zipIdx.foldl (fun d p => d.act (.load (BitVec.ofNat 15 p.2) p.1))
        (b.act .assertReset)).act .releaseReset ∧
      c.rst = false ∧
      (∀ a : Value, c.core.memRead a = image[a.toNat]?.getD 0) ∧
      { c.core with mem := [] } = (b.act .assertReset).core

/-- R36: the image takes its bytes in pairs, the first of each pair the low byte. The clause on an odd
number of bytes is the model's choice (log entry 8). -/
def Obligations.ImageWordsAreLittleEndianBytePairs : Prop :=
  ∀ bytes : List (BitVec 8),
    (bytes.length % 2 = 0 → ∃ words, imageOfBytes bytes = some words ∧
      bytes.length = 2 * words.length ∧
      ∀ (k : Nat) (w : Word), words[k]? = some w →
        w.toNat = (bytes[2 * k]?.getD 0).toNat + 256 * (bytes[2 * k + 1]?.getD 0).toNat) ∧
    (bytes.length % 2 = 1 → imageOfBytes bytes = none)

/-- R42, U1: a machine constructed with an image holds it, padded with 0, in the reset state; an image
of more than 32768 words is refused. -/
def Obligations.BootHoldsTheImageOrRefusesIt : Prop :=
  ∀ (capacity : Option Nat) (input : List Code) (image : List Word),
    (image.length ≤ 32768 → ∃ t, State.boot capacity input image = .next t ∧
      (∀ a : Value, t.memRead a = image[a.toNat]?.getD 0) ∧
      { t with mem := [] } =
        { State.reset with stackCapacity := capacity, hostInput := input }) ∧
    (32768 < image.length → State.boot capacity input image = .refused .imageTooLong)

/-- R100, R101, R30, R31: while reset is high no instruction runs; while it is low the load port writes
nothing; while `step_en` is low no instruction starts, and driving it changes no state; when it is high,
outside reset and with nothing started, one step runs, and an IN without a line starts, waits and asks
for one (R85, R96). -/
def Obligations.PortsObeyTheResetLevel : Prop :=
  ∀ b : Block, (b.rst = true → b.act .proceed = b ∧ b.outputs.inLineReq = false) ∧
    (b.rst = false → ∀ addr data, b.act (.load addr data) = b) ∧
    (b.stepEn = false → b.act .proceed = b) ∧
    (∀ level, b.act (.setStepEn level) = { b with stepEn := level }) ∧
    (b.rst = false → b.stepEn = true → b.inStarted = false →
      (∀ t, step b.core = .next t → b.act .proceed = { b with core := t }) ∧
      (step b.core = .fault .inputWait → b.act .proceed = { b with inStarted := true } ∧
        b.outputs.inLineReq = false ∧ (b.act .proceed).outputs.inLineReq = true))

/-- R22, R94, R102: outside reset, no host action but reset changes a terminal block (codes the host
gets to offer are the host's, not the block's). -/
def Obligations.OnlyResetLeavesATerminalState : Prop :=
  ∀ (b : Block) (x : HostAction), b.rst = false → b.core.run ≠ .running → x ≠ .assertReset →
    { (b.act x).core with hostInput := b.core.hostInput } = b.core

/-- R85, R96, R99: with a complete line an IN's step has a next state; a started IN completes on that
line alone, whatever the level of `step_en`, and the request falls; codes without a line's end leave it
waiting; nothing but codes and reset touches it or the state. -/
def Obligations.ACompletedLineEndsTheWait : Prop :=
  ∀ b : Block, b.core.waitsForLine = true →
    (∀ codes, Config.lineTerminator ∈ codes →
      ∃ t, step { b.core with hostInput := b.core.hostInput ++ codes } = .next t ∧
        (b.rst = false → b.inStarted = true →
          b.act (.offer codes) = { b with inStarted := false, core := t } ∧
          b.outputs.inLineReq = true ∧ (b.act (.offer codes)).outputs.inLineReq = false)) ∧
    (∀ codes, Config.lineTerminator ∉ codes →
      b.act (.offer codes) =
        { b with core := { b.core with hostInput := b.core.hostInput ++ codes } }) ∧
    (∀ x, b.rst = false → b.inStarted = true → x ≠ .assertReset → (∀ codes, x ≠ .offer codes) →
      (b.act x).core = b.core ∧ (b.act x).outputs.inLineReq = true)
end

