-- ==== Sys2Proof/Laws/Decode.lean ====
section
/-!
SUPPORT. The class of an operand word, both ways, and what each format of the decoder answers.
-/

namespace Sys2Proof

theorem toNat_toWord_lit (v : Value) : (Operand.lit v).toWord.toNat = v.toNat := by
  have := v.isLt
  simp only [Operand.toWord, BitVec.toNat_setWidth]
  omega

theorem toNat_toWord_reg (r : Reg) : (Operand.reg r).toWord.toNat = 32768 + r.val := by
  have := r.isLt
  simp only [Operand.toWord, BitVec.toNat_ofNat, Config.regBase]
  omega

theorem Operand.toWord_lt (o : Operand) : o.toWord.toNat < 32776 := by
  cases o with
  | lit v =>
    have := v.isLt
    rw [toNat_toWord_lit]
    omega
  | reg r =>
    have := r.isLt
    rw [toNat_toWord_reg]
    omega

/-! ### The class of an operand word (R51) -/

theorem operandOfWord_lit {w : Word} (h : w.toNat < 32768) :
    operandOfWord w = some (.lit (w.setWidth 15)) := if_pos h

theorem operandOfWord_reg {w : Word} (h : ¬ w.toNat < 32768) (h' : w.toNat < 32776)
    (h8 : w.toNat - 32768 < 8) : operandOfWord w = some (.reg ⟨w.toNat - 32768, h8⟩) :=
  (if_neg h).trans (dif_pos h')

theorem operandOfWord_of_ge {w : Word} (h : 32776 ≤ w.toNat) : operandOfWord w = none := by
  have h1 : ¬ w.toNat < 32768 := by omega
  have h2 : ¬ w.toNat < 32776 := by omega
  exact (if_neg h1).trans (dif_neg h2)

/-- The legal operand words are the words below 32776. -/
theorem operandOfWord_of_lt {w : Word} (h : w.toNat < 32776) : ∃ o, operandOfWord w = some o := by
  by_cases hl : w.toNat < 32768
  · exact ⟨_, operandOfWord_lit hl⟩
  · exact ⟨_, operandOfWord_reg hl h (by omega)⟩

/-- An operand's word is read back as that operand. -/
@[simp] theorem operandOfWord_toWord (o : Operand) : operandOfWord o.toWord = some o := by
  cases o with
  | lit v =>
    have hv := v.isLt
    have hw := toNat_toWord_lit v
    rw [operandOfWord_lit (by omega)]
    congr 2
    apply BitVec.eq_of_toNat_eq
    rw [BitVec.toNat_setWidth, hw]
    omega
  | reg r =>
    have hr := r.isLt
    have hw := toNat_toWord_reg r
    rw [operandOfWord_reg (by omega) (by omega) (by omega)]
    refine congrArg (fun r => some (Operand.reg r)) (Fin.ext ?_)
    show (Operand.reg r).toWord.toNat - 32768 = r.val
    omega

/-- A word read as an operand is that operand's word. -/
theorem toWord_of_operandOfWord {w : Word} {o : Operand} (h : operandOfWord w = some o) :
    o.toWord = w := by
  have hw := w.isLt
  apply BitVec.eq_of_toNat_eq
  by_cases hl : w.toNat < 32768
  · rw [operandOfWord_lit hl] at h
    obtain rfl := Option.some.inj h
    rw [toNat_toWord_lit, BitVec.toNat_setWidth]
    omega
  · by_cases hr : w.toNat < 32776
    · rw [operandOfWord_reg hl hr (by omega)] at h
      obtain rfl := Option.some.inj h
      rw [toNat_toWord_reg]
      simp only
      omega
    · rw [operandOfWord_of_ge (by omega)] at h
      cases h

/-! ### The formats -/

theorem decodeFormat1_ok {mk : Operand → Instr} {ws rest : List Word} {i : Instr}
    (h : decodeFormat1 mk ws = .ok (i, rest)) :
    ∃ a : Operand, i = mk a ∧ ws = a.toWord :: rest := by
  cases ws with
  | nil => simp [decodeFormat1] at h
  | cons a ws =>
    cases ha : operandOfWord a with
    | none => simp [decodeFormat1, ha] at h
    | some oa =>
      simp only [decodeFormat1, ha, Except.ok.injEq, Prod.mk.injEq] at h
      obtain ⟨rfl, rfl⟩ := h
      exact ⟨oa, rfl, by rw [toWord_of_operandOfWord ha]⟩

theorem decodeFormat2_ok {mk : Operand → Operand → Instr} {ws rest : List Word} {i : Instr}
    (h : decodeFormat2 mk ws = .ok (i, rest)) :
    ∃ a b : Operand, i = mk a b ∧ ws = a.toWord :: b.toWord :: rest := by
  match ws, h with
  | [], h => simp [decodeFormat2] at h
  | [_], h => simp [decodeFormat2] at h
  | a :: b :: ws, h =>
    cases ha : operandOfWord a with
    | none => simp [decodeFormat2, ha] at h
    | some oa =>
      cases hb : operandOfWord b with
      | none => simp [decodeFormat2, ha, hb] at h
      | some ob =>
        simp only [decodeFormat2, ha, hb, Except.ok.injEq, Prod.mk.injEq] at h
        obtain ⟨rfl, rfl⟩ := h
        exact ⟨oa, ob, rfl, by rw [toWord_of_operandOfWord ha, toWord_of_operandOfWord hb]⟩

theorem decodeFormat3_ok {mk : Operand → Operand → Operand → Instr} {ws rest : List Word}
    {i : Instr} (h : decodeFormat3 mk ws = .ok (i, rest)) :
    ∃ a b c : Operand, i = mk a b c ∧ ws = a.toWord :: b.toWord :: c.toWord :: rest := by
  match ws, h with
  | [], h => simp [decodeFormat3] at h
  | [_], h => simp [decodeFormat3] at h
  | [_, _], h => simp [decodeFormat3] at h
  | a :: b :: c :: ws, h =>
    cases ha : operandOfWord a with
    | none => simp [decodeFormat3, ha] at h
    | some oa =>
      cases hb : operandOfWord b with
      | none => simp [decodeFormat3, ha, hb] at h
      | some ob =>
        cases hc : operandOfWord c with
        | none => simp [decodeFormat3, ha, hb, hc] at h
        | some oc =>
          simp only [decodeFormat3, ha, hb, hc, Except.ok.injEq, Prod.mk.injEq] at h
          obtain ⟨rfl, rfl⟩ := h
          exact ⟨oa, ob, oc, rfl, by
            rw [toWord_of_operandOfWord ha, toWord_of_operandOfWord hb,
              toWord_of_operandOfWord hc]⟩

/-! ### What the decoder rejects (R60) -/

theorem decode_unknown {op : Word} {ws : List Word} (h : 22 ≤ op.toNat) :
    decode (op :: ws) = .error (.unknownOpcode op) := by
  simp only [decode]
  split
  case h_23 => rfl
  all_goals omega

/-- Format R or D rejects: its operand missing, or invalid. -/
theorem decodeFormat1_rejects (mk : Operand → Instr) (ws : List Word) :
    (ws.length < 1 → decodeFormat1 mk ws = .error (.missingOperand (ws.length + 1))) ∧
      ∀ a rest, ws = a :: rest → 32776 ≤ a.toNat →
        decodeFormat1 mk ws = .error (.invalidOperand a) := by
  constructor
  · intro h
    match ws, h with
    | [], _ => rfl
  · rintro a rest rfl ha
    simp [decodeFormat1, operandOfWord_of_ge ha]

/-- Format DR or RR rejects: an operand missing, or the first invalid one. -/
theorem decodeFormat2_rejects (mk : Operand → Operand → Instr) (ws : List Word) :
    (ws.length < 2 → decodeFormat2 mk ws = .error (.missingOperand (ws.length + 1))) ∧
      ∀ a b rest, ws = a :: b :: rest →
        (32776 ≤ a.toNat → decodeFormat2 mk ws = .error (.invalidOperand a)) ∧
        (a.toNat < 32776 → 32776 ≤ b.toNat →
          decodeFormat2 mk ws = .error (.invalidOperand b)) := by
  constructor
  · intro h
    match ws, h with
    | [], _ => rfl
    | [_], _ => rfl
  · rintro a b rest rfl
    refine ⟨fun ha => by simp [decodeFormat2, operandOfWord_of_ge ha], fun ha hb => ?_⟩
    obtain ⟨oa, hoa⟩ := operandOfWord_of_lt ha
    simp [decodeFormat2, hoa, operandOfWord_of_ge hb]

/-- Format DRR rejects: an operand missing, or the first invalid one. -/
theorem decodeFormat3_rejects (mk : Operand → Operand → Operand → Instr) (ws : List Word) :
    (ws.length < 3 → decodeFormat3 mk ws = .error (.missingOperand (ws.length + 1))) ∧
      ∀ a b c rest, ws = a :: b :: c :: rest →
        (32776 ≤ a.toNat → decodeFormat3 mk ws = .error (.invalidOperand a)) ∧
        (a.toNat < 32776 → 32776 ≤ b.toNat →
          decodeFormat3 mk ws = .error (.invalidOperand b)) ∧
        (a.toNat < 32776 → b.toNat < 32776 → 32776 ≤ c.toNat →
          decodeFormat3 mk ws = .error (.invalidOperand c)) := by
  constructor
  · intro h
    match ws, h with
    | [], _ => rfl
    | [_], _ => rfl
    | [_, _], _ => rfl
  · rintro a b c rest rfl
    refine ⟨fun ha => by simp [decodeFormat3, operandOfWord_of_ge ha], fun ha hb => ?_,
      fun ha hb hc => ?_⟩
    · obtain ⟨oa, hoa⟩ := operandOfWord_of_lt ha
      simp [decodeFormat3, hoa, operandOfWord_of_ge hb]
    · obtain ⟨oa, hoa⟩ := operandOfWord_of_lt ha
      obtain ⟨ob, hob⟩ := operandOfWord_of_lt hb
      simp [decodeFormat3, hoa, hob, operandOfWord_of_ge hc]

end Sys2Proof
end

