-- ==== Sys2Proof/Laws/Memory.lean ====
section
/-!
SUPPORT. Memory: a read after a write, and that every write keeps the canonical form.
-/

namespace Sys2Proof.Machine

theorem Memory.read_cons (k : Nat) (w : Word) (rest : Memory) (a : Nat) :
    Memory.read ((k, w) :: rest) a = if k = a then w else Memory.read rest a := rfl

theorem Memory.read_erase_same (m : Memory) (a : Nat) : (m.erase a).read a = 0 := by
  induction m with
  | nil => rfl
  | cons cell rest ih =>
    obtain ⟨k, w⟩ := cell
    unfold Memory.erase at ih ⊢
    by_cases h : k = a
    · simpa [List.filter_cons, h] using ih
    · simp [h, Memory.read_cons, ih]

theorem Memory.read_erase_other (m : Memory) {a b : Nat} (h : a ≠ b) :
    (m.erase a).read b = m.read b := by
  induction m with
  | nil => rfl
  | cons cell rest ih =>
    obtain ⟨k, w⟩ := cell
    unfold Memory.erase at ih ⊢
    by_cases hk : k = a
    · simpa [List.filter_cons, hk, Memory.read_cons, h] using ih
    · simp [hk, Memory.read_cons, ih]

theorem Memory.read_insert_other (m : Memory) {a b : Nat} (w : Word) (h : a ≠ b) :
    (m.insert a w).read b = m.read b := by
  induction m with
  | nil => simp [Memory.insert, Memory.read, h]
  | cons cell rest ih =>
    obtain ⟨k, v⟩ := cell
    by_cases hk : a < k <;> simp [Memory.insert, hk, Memory.read_cons, h, ih]

theorem Memory.read_insert_same (m : Memory) (a : Nat) (w : Word) (h : ∀ cell ∈ m, cell.1 ≠ a) :
    (m.insert a w).read a = w := by
  induction m with
  | nil => simp [Memory.insert, Memory.read]
  | cons cell rest ih =>
    obtain ⟨k, v⟩ := cell
    have hk : k ≠ a := h (k, v) (by simp)
    have := ih (fun c hc => h c (by simp [hc]))
    by_cases hlt : a < k <;> simp [Memory.insert, hlt, Memory.read_cons, hk, this]

theorem Memory.mem_erase_ne (m : Memory) (a : Nat) : ∀ cell ∈ m.erase a, cell.1 ≠ a := by
  intro cell hc
  simpa using (List.mem_filter.mp hc).2

/-- A cell reads as what was last written to it, whatever the memory. -/
theorem Memory.read_write_same (m : Memory) (a : Nat) (w : Word) : (m.write a w).read a = w := by
  unfold Memory.write
  split
  · next h => rw [Memory.read_erase_same, h]
  · exact Memory.read_insert_same _ a w (Memory.mem_erase_ne m a)

/-- A write leaves every other cell alone, whatever the memory. -/
theorem Memory.read_write_other (m : Memory) {a b : Nat} (w : Word) (h : a ≠ b) :
    (m.write a w).read b = m.read b := by
  unfold Memory.write
  split
  · exact Memory.read_erase_other m h
  · rw [Memory.read_insert_other _ w h, Memory.read_erase_other m h]

theorem Memory.wfFrom_cons (low k : Nat) (w : Word) (rest : Memory) :
    Memory.wfFrom low ((k, w) :: rest) = true ↔
      low ≤ k ∧ k < 32768 ∧ w ≠ 0 ∧ Memory.wfFrom (k + 1) rest = true := by
  simp [Memory.wfFrom, and_assoc]

theorem Memory.wfFrom_mono {m : Memory} {low low' : Nat} (h : low' ≤ low)
    (hm : Memory.wfFrom low m = true) : Memory.wfFrom low' m = true := by
  cases m with
  | nil => rfl
  | cons cell rest =>
    obtain ⟨k, w⟩ := cell
    rw [Memory.wfFrom_cons] at hm ⊢
    exact ⟨by omega, hm.2⟩

theorem Memory.wfFrom_erase {m : Memory} {low : Nat} (a : Nat) (hm : Memory.wfFrom low m = true) :
    Memory.wfFrom low (m.erase a) = true := by
  induction m generalizing low with
  | nil => rfl
  | cons cell rest ih =>
    obtain ⟨k, w⟩ := cell
    rw [Memory.wfFrom_cons] at hm
    have hrest := ih hm.2.2.2
    unfold Memory.erase at hrest ⊢
    by_cases hk : k = a
    · simpa [List.filter_cons, hk] using Memory.wfFrom_mono (by omega) hrest
    · simpa [List.filter_cons, hk, Memory.wfFrom_cons] using ⟨hm.1, hm.2.1, hm.2.2.1, hrest⟩

theorem Memory.wfFrom_insert {m : Memory} {low a : Nat} {w : Word} (hlow : low ≤ a)
    (ha : a < 32768) (hw : w ≠ 0) (hne : ∀ cell ∈ m, cell.1 ≠ a)
    (hm : Memory.wfFrom low m = true) : Memory.wfFrom low (m.insert a w) = true := by
  induction m generalizing low with
  | nil => simpa [Memory.insert, Memory.wfFrom, hlow, ha] using hw
  | cons cell rest ih =>
    obtain ⟨k, v⟩ := cell
    have hk : k ≠ a := hne (k, v) (by simp)
    have hr : ∀ c ∈ rest, c.1 ≠ a := fun c hc => hne c (by simp [hc])
    have hm' := (Memory.wfFrom_cons ..).mp hm
    by_cases hlt : a < k
    · simp only [Memory.insert, hlt, if_true, Memory.wfFrom_cons]
      exact ⟨hlow, ha, hw, hlt, hm'.2⟩
    · simp only [Memory.insert, hlt, if_false, Memory.wfFrom_cons]
      exact ⟨hm'.1, hm'.2.1, hm'.2.2.1, ih (by omega) hr hm'.2.2.2⟩

/-- A write at an address of the address space keeps the canonical form. -/
theorem Memory.wf_write {m : Memory} {a : Nat} (w : Word) (ha : a < 32768) (hm : m.wf = true) :
    (m.write a w).wf = true := by
  unfold Memory.write Memory.wf at *
  split
  · exact Memory.wfFrom_erase a hm
  · next hw =>
    exact Memory.wfFrom_insert (Nat.zero_le a) ha hw (Memory.mem_erase_ne m a)
      (Memory.wfFrom_erase a hm)

theorem State.memWrite_wf {s : State} (a : Value) (v : Word) (h : s.mem.wf = true) :
    (s.memWrite a v).mem.wf = true :=
  Memory.wf_write _ a.isLt h

theorem State.loadWord_wf {s : State} {a : Nat} (v : Word) (ha : a < 32768)
    (h : s.mem.wf = true) : (s.loadWord a v).mem.wf = true :=
  Memory.wf_write v ha h

theorem State.loadWords_wf {s : State} (a : Nat) (ws : List Word) (h : s.mem.wf = true) :
    (s.loadWords a ws).mem.wf = true := by
  induction ws generalizing s a with
  | nil => exact h
  | cons w ws ih =>
    unfold State.loadWords
    split
    · next ha => exact ih (a + 1) (State.loadWord_wf w ha h)
    · exact h

theorem State.reset_mem_wf : State.reset.mem.wf = true := rfl

/-- `MemRead` after `MemWrite` of the same address: the value mod 32768 (R14, R39). -/
theorem State.memRead_memWrite_same (s : State) (a : Value) (v : Word) :
    (s.memWrite a v).memRead a = widen (reduce v) :=
  Memory.read_write_same ..

theorem State.memRead_memWrite_other (s : State) {a b : Value} (v : Word) (h : a ≠ b) :
    (s.memWrite a v).memRead b = s.memRead b :=
  Memory.read_write_other _ _ (fun e => h (BitVec.eq_of_toNat_eq e))

end Sys2Proof.Machine
end

