-- ==== Sys2Proof/Laws/State.lean ====
section
/-!
SUPPORT. Each field after each update of the state: true by definition, for simp.
-/

namespace Sys2Proof.Machine

/-! ### memWrite -/

@[simp] theorem State.memWrite_mem (s : State) (a : Value) (v : Word) :
    (s.memWrite a v).mem = s.mem.write a.toNat (widen (reduce v)) := rfl
@[simp] theorem State.memWrite_regs (s : State) (a : Value) (v : Word) :
    (s.memWrite a v).regs = s.regs := rfl
@[simp] theorem State.memWrite_stack (s : State) (a : Value) (v : Word) :
    (s.memWrite a v).stack = s.stack := rfl
@[simp] theorem State.memWrite_pc (s : State) (a : Value) (v : Word) :
    (s.memWrite a v).pc = s.pc := rfl
@[simp] theorem State.memWrite_run (s : State) (a : Value) (v : Word) :
    (s.memWrite a v).run = s.run := rfl
@[simp] theorem State.memWrite_errCode (s : State) (a : Value) (v : Word) :
    (s.memWrite a v).errCode = s.errCode := rfl
@[simp] theorem State.memWrite_errValue (s : State) (a : Value) (v : Word) :
    (s.memWrite a v).errValue = s.errValue := rfl
@[simp] theorem State.memWrite_inBuf (s : State) (a : Value) (v : Word) :
    (s.memWrite a v).inBuf = s.inBuf := rfl
@[simp] theorem State.memWrite_outStream (s : State) (a : Value) (v : Word) :
    (s.memWrite a v).outStream = s.outStream := rfl
@[simp] theorem State.memWrite_inStream (s : State) (a : Value) (v : Word) :
    (s.memWrite a v).inStream = s.inStream := rfl
@[simp] theorem State.memWrite_lineTrace (s : State) (a : Value) (v : Word) :
    (s.memWrite a v).lineTrace = s.lineTrace := rfl
@[simp] theorem State.memWrite_stackCapacity (s : State) (a : Value) (v : Word) :
    (s.memWrite a v).stackCapacity = s.stackCapacity := rfl
@[simp] theorem State.memWrite_hostInput (s : State) (a : Value) (v : Word) :
    (s.memWrite a v).hostInput = s.hostInput := rfl

/-! ### loadWord -/

@[simp] theorem State.loadWord_mem (s : State) (a : Nat) (v : Word) :
    (s.loadWord a v).mem = s.mem.write a v := rfl
@[simp] theorem State.loadWord_regs (s : State) (a : Nat) (v : Word) :
    (s.loadWord a v).regs = s.regs := rfl
@[simp] theorem State.loadWord_stack (s : State) (a : Nat) (v : Word) :
    (s.loadWord a v).stack = s.stack := rfl
@[simp] theorem State.loadWord_pc (s : State) (a : Nat) (v : Word) :
    (s.loadWord a v).pc = s.pc := rfl
@[simp] theorem State.loadWord_run (s : State) (a : Nat) (v : Word) :
    (s.loadWord a v).run = s.run := rfl
@[simp] theorem State.loadWord_errCode (s : State) (a : Nat) (v : Word) :
    (s.loadWord a v).errCode = s.errCode := rfl
@[simp] theorem State.loadWord_errValue (s : State) (a : Nat) (v : Word) :
    (s.loadWord a v).errValue = s.errValue := rfl
@[simp] theorem State.loadWord_inBuf (s : State) (a : Nat) (v : Word) :
    (s.loadWord a v).inBuf = s.inBuf := rfl
@[simp] theorem State.loadWord_outStream (s : State) (a : Nat) (v : Word) :
    (s.loadWord a v).outStream = s.outStream := rfl
@[simp] theorem State.loadWord_inStream (s : State) (a : Nat) (v : Word) :
    (s.loadWord a v).inStream = s.inStream := rfl
@[simp] theorem State.loadWord_lineTrace (s : State) (a : Nat) (v : Word) :
    (s.loadWord a v).lineTrace = s.lineTrace := rfl
@[simp] theorem State.loadWord_stackCapacity (s : State) (a : Nat) (v : Word) :
    (s.loadWord a v).stackCapacity = s.stackCapacity := rfl
@[simp] theorem State.loadWord_hostInput (s : State) (a : Nat) (v : Word) :
    (s.loadWord a v).hostInput = s.hostInput := rfl

/-! ### setReg -/

@[simp] theorem State.setReg_mem (s : State) (r : Reg) (v : Value) :
    (s.setReg r v).mem = s.mem := rfl
@[simp] theorem State.setReg_regs (s : State) (r : Reg) (v : Value) :
    (s.setReg r v).regs = s.regs.set r.val v := rfl
@[simp] theorem State.setReg_stack (s : State) (r : Reg) (v : Value) :
    (s.setReg r v).stack = s.stack := rfl
@[simp] theorem State.setReg_pc (s : State) (r : Reg) (v : Value) :
    (s.setReg r v).pc = s.pc := rfl
@[simp] theorem State.setReg_run (s : State) (r : Reg) (v : Value) :
    (s.setReg r v).run = s.run := rfl
@[simp] theorem State.setReg_errCode (s : State) (r : Reg) (v : Value) :
    (s.setReg r v).errCode = s.errCode := rfl
@[simp] theorem State.setReg_errValue (s : State) (r : Reg) (v : Value) :
    (s.setReg r v).errValue = s.errValue := rfl
@[simp] theorem State.setReg_inBuf (s : State) (r : Reg) (v : Value) :
    (s.setReg r v).inBuf = s.inBuf := rfl
@[simp] theorem State.setReg_outStream (s : State) (r : Reg) (v : Value) :
    (s.setReg r v).outStream = s.outStream := rfl
@[simp] theorem State.setReg_inStream (s : State) (r : Reg) (v : Value) :
    (s.setReg r v).inStream = s.inStream := rfl
@[simp] theorem State.setReg_lineTrace (s : State) (r : Reg) (v : Value) :
    (s.setReg r v).lineTrace = s.lineTrace := rfl
@[simp] theorem State.setReg_stackCapacity (s : State) (r : Reg) (v : Value) :
    (s.setReg r v).stackCapacity = s.stackCapacity := rfl
@[simp] theorem State.setReg_hostInput (s : State) (r : Reg) (v : Value) :
    (s.setReg r v).hostInput = s.hostInput := rfl

/-! ### setPc -/

@[simp] theorem State.setPc_mem (s : State) (v : Word) :
    (s.setPc v).mem = s.mem := rfl
@[simp] theorem State.setPc_regs (s : State) (v : Word) :
    (s.setPc v).regs = s.regs := rfl
@[simp] theorem State.setPc_stack (s : State) (v : Word) :
    (s.setPc v).stack = s.stack := rfl
@[simp] theorem State.setPc_pc (s : State) (v : Word) :
    (s.setPc v).pc = v := rfl
@[simp] theorem State.setPc_run (s : State) (v : Word) :
    (s.setPc v).run = s.run := rfl
@[simp] theorem State.setPc_errCode (s : State) (v : Word) :
    (s.setPc v).errCode = s.errCode := rfl
@[simp] theorem State.setPc_errValue (s : State) (v : Word) :
    (s.setPc v).errValue = s.errValue := rfl
@[simp] theorem State.setPc_inBuf (s : State) (v : Word) :
    (s.setPc v).inBuf = s.inBuf := rfl
@[simp] theorem State.setPc_outStream (s : State) (v : Word) :
    (s.setPc v).outStream = s.outStream := rfl
@[simp] theorem State.setPc_inStream (s : State) (v : Word) :
    (s.setPc v).inStream = s.inStream := rfl
@[simp] theorem State.setPc_lineTrace (s : State) (v : Word) :
    (s.setPc v).lineTrace = s.lineTrace := rfl
@[simp] theorem State.setPc_stackCapacity (s : State) (v : Word) :
    (s.setPc v).stackCapacity = s.stackCapacity := rfl
@[simp] theorem State.setPc_hostInput (s : State) (v : Word) :
    (s.setPc v).hostInput = s.hostInput := rfl

/-! ### advance -/

@[simp] theorem State.advance_mem (s : State) (n : Nat) :
    (s.advance n).mem = s.mem := rfl
@[simp] theorem State.advance_regs (s : State) (n : Nat) :
    (s.advance n).regs = s.regs := rfl
@[simp] theorem State.advance_stack (s : State) (n : Nat) :
    (s.advance n).stack = s.stack := rfl
@[simp] theorem State.advance_pc (s : State) (n : Nat) :
    (s.advance n).pc = s.pc + BitVec.ofNat 16 n := rfl
@[simp] theorem State.advance_run (s : State) (n : Nat) :
    (s.advance n).run = s.run := rfl
@[simp] theorem State.advance_errCode (s : State) (n : Nat) :
    (s.advance n).errCode = s.errCode := rfl
@[simp] theorem State.advance_errValue (s : State) (n : Nat) :
    (s.advance n).errValue = s.errValue := rfl
@[simp] theorem State.advance_inBuf (s : State) (n : Nat) :
    (s.advance n).inBuf = s.inBuf := rfl
@[simp] theorem State.advance_outStream (s : State) (n : Nat) :
    (s.advance n).outStream = s.outStream := rfl
@[simp] theorem State.advance_inStream (s : State) (n : Nat) :
    (s.advance n).inStream = s.inStream := rfl
@[simp] theorem State.advance_lineTrace (s : State) (n : Nat) :
    (s.advance n).lineTrace = s.lineTrace := rfl
@[simp] theorem State.advance_stackCapacity (s : State) (n : Nat) :
    (s.advance n).stackCapacity = s.stackCapacity := rfl
@[simp] theorem State.advance_hostInput (s : State) (n : Nat) :
    (s.advance n).hostInput = s.hostInput := rfl

/-! ### halt -/

@[simp] theorem State.halt_mem (s : State) :
    s.halt.mem = s.mem := rfl
@[simp] theorem State.halt_regs (s : State) :
    s.halt.regs = s.regs := rfl
@[simp] theorem State.halt_stack (s : State) :
    s.halt.stack = s.stack := rfl
@[simp] theorem State.halt_pc (s : State) :
    s.halt.pc = s.pc := rfl
@[simp] theorem State.halt_run (s : State) :
    s.halt.run = .halted := rfl
@[simp] theorem State.halt_errCode (s : State) :
    s.halt.errCode = s.errCode := rfl
@[simp] theorem State.halt_errValue (s : State) :
    s.halt.errValue = s.errValue := rfl
@[simp] theorem State.halt_inBuf (s : State) :
    s.halt.inBuf = s.inBuf := rfl
@[simp] theorem State.halt_outStream (s : State) :
    s.halt.outStream = s.outStream := rfl
@[simp] theorem State.halt_inStream (s : State) :
    s.halt.inStream = s.inStream := rfl
@[simp] theorem State.halt_lineTrace (s : State) :
    s.halt.lineTrace = s.lineTrace := rfl
@[simp] theorem State.halt_stackCapacity (s : State) :
    s.halt.stackCapacity = s.stackCapacity := rfl
@[simp] theorem State.halt_hostInput (s : State) :
    s.halt.hostInput = s.hostInput := rfl

/-! ### raise -/

@[simp] theorem State.raise_mem (s : State) (e : ErrorClass) (v : Word) :
    (s.raise e v).mem = s.mem := rfl
@[simp] theorem State.raise_regs (s : State) (e : ErrorClass) (v : Word) :
    (s.raise e v).regs = s.regs := rfl
@[simp] theorem State.raise_stack (s : State) (e : ErrorClass) (v : Word) :
    (s.raise e v).stack = s.stack := rfl
@[simp] theorem State.raise_pc (s : State) (e : ErrorClass) (v : Word) :
    (s.raise e v).pc = s.pc := rfl
@[simp] theorem State.raise_run (s : State) (e : ErrorClass) (v : Word) :
    (s.raise e v).run = .errored := rfl
@[simp] theorem State.raise_errCode (s : State) (e : ErrorClass) (v : Word) :
    (s.raise e v).errCode = e := rfl
@[simp] theorem State.raise_errValue (s : State) (e : ErrorClass) (v : Word) :
    (s.raise e v).errValue = v := rfl
@[simp] theorem State.raise_inBuf (s : State) (e : ErrorClass) (v : Word) :
    (s.raise e v).inBuf = s.inBuf := rfl
@[simp] theorem State.raise_outStream (s : State) (e : ErrorClass) (v : Word) :
    (s.raise e v).outStream = s.outStream := rfl
@[simp] theorem State.raise_inStream (s : State) (e : ErrorClass) (v : Word) :
    (s.raise e v).inStream = s.inStream := rfl
@[simp] theorem State.raise_lineTrace (s : State) (e : ErrorClass) (v : Word) :
    (s.raise e v).lineTrace = s.lineTrace := rfl
@[simp] theorem State.raise_stackCapacity (s : State) (e : ErrorClass) (v : Word) :
    (s.raise e v).stackCapacity = s.stackCapacity := rfl
@[simp] theorem State.raise_hostInput (s : State) (e : ErrorClass) (v : Word) :
    (s.raise e v).hostInput = s.hostInput := rfl

/-! ### pushEntry -/

@[simp] theorem State.pushEntry_mem (s : State) (v : Word) :
    (s.pushEntry v).mem = s.mem := rfl
@[simp] theorem State.pushEntry_regs (s : State) (v : Word) :
    (s.pushEntry v).regs = s.regs := rfl
@[simp] theorem State.pushEntry_stack (s : State) (v : Word) :
    (s.pushEntry v).stack = v :: s.stack := rfl
@[simp] theorem State.pushEntry_pc (s : State) (v : Word) :
    (s.pushEntry v).pc = s.pc := rfl
@[simp] theorem State.pushEntry_run (s : State) (v : Word) :
    (s.pushEntry v).run = s.run := rfl
@[simp] theorem State.pushEntry_errCode (s : State) (v : Word) :
    (s.pushEntry v).errCode = s.errCode := rfl
@[simp] theorem State.pushEntry_errValue (s : State) (v : Word) :
    (s.pushEntry v).errValue = s.errValue := rfl
@[simp] theorem State.pushEntry_inBuf (s : State) (v : Word) :
    (s.pushEntry v).inBuf = s.inBuf := rfl
@[simp] theorem State.pushEntry_outStream (s : State) (v : Word) :
    (s.pushEntry v).outStream = s.outStream := rfl
@[simp] theorem State.pushEntry_inStream (s : State) (v : Word) :
    (s.pushEntry v).inStream = s.inStream := rfl
@[simp] theorem State.pushEntry_lineTrace (s : State) (v : Word) :
    (s.pushEntry v).lineTrace = s.lineTrace := rfl
@[simp] theorem State.pushEntry_stackCapacity (s : State) (v : Word) :
    (s.pushEntry v).stackCapacity = s.stackCapacity := rfl
@[simp] theorem State.pushEntry_hostInput (s : State) (v : Word) :
    (s.pushEntry v).hostInput = s.hostInput := rfl

/-! ### emit -/

@[simp] theorem State.emit_mem (s : State) (c : Code) :
    (s.emit c).mem = s.mem := rfl
@[simp] theorem State.emit_regs (s : State) (c : Code) :
    (s.emit c).regs = s.regs := rfl
@[simp] theorem State.emit_stack (s : State) (c : Code) :
    (s.emit c).stack = s.stack := rfl
@[simp] theorem State.emit_pc (s : State) (c : Code) :
    (s.emit c).pc = s.pc := rfl
@[simp] theorem State.emit_run (s : State) (c : Code) :
    (s.emit c).run = s.run := rfl
@[simp] theorem State.emit_errCode (s : State) (c : Code) :
    (s.emit c).errCode = s.errCode := rfl
@[simp] theorem State.emit_errValue (s : State) (c : Code) :
    (s.emit c).errValue = s.errValue := rfl
@[simp] theorem State.emit_inBuf (s : State) (c : Code) :
    (s.emit c).inBuf = s.inBuf := rfl
@[simp] theorem State.emit_outStream (s : State) (c : Code) :
    (s.emit c).outStream = s.outStream ++ [c] := rfl
@[simp] theorem State.emit_inStream (s : State) (c : Code) :
    (s.emit c).inStream = s.inStream := rfl
@[simp] theorem State.emit_lineTrace (s : State) (c : Code) :
    (s.emit c).lineTrace = s.lineTrace := rfl
@[simp] theorem State.emit_stackCapacity (s : State) (c : Code) :
    (s.emit c).stackCapacity = s.stackCapacity := rfl
@[simp] theorem State.emit_hostInput (s : State) (c : Code) :
    (s.emit c).hostInput = s.hostInput := rfl

/-! ### Registers and memory words after the updates that leave them alone -/

@[simp] theorem State.memWrite_getReg (s : State) (a : Value) (v : Word) (i : Reg) :
    (s.memWrite a v).getReg i = s.getReg i := rfl
@[simp] theorem State.loadWord_getReg (s : State) (a : Nat) (v : Word) (i : Reg) :
    (s.loadWord a v).getReg i = s.getReg i := rfl
@[simp] theorem State.setReg_memRead (s : State) (r : Reg) (v : Value) (x : Value) :
    (s.setReg r v).memRead x = s.memRead x := rfl
@[simp] theorem State.setPc_getReg (s : State) (v : Word) (i : Reg) :
    (s.setPc v).getReg i = s.getReg i := rfl
@[simp] theorem State.setPc_memRead (s : State) (v : Word) (x : Value) :
    (s.setPc v).memRead x = s.memRead x := rfl
@[simp] theorem State.advance_getReg (s : State) (n : Nat) (i : Reg) :
    (s.advance n).getReg i = s.getReg i := rfl
@[simp] theorem State.advance_memRead (s : State) (n : Nat) (x : Value) :
    (s.advance n).memRead x = s.memRead x := rfl
@[simp] theorem State.halt_getReg (s : State) (i : Reg) :
    s.halt.getReg i = s.getReg i := rfl
@[simp] theorem State.halt_memRead (s : State) (x : Value) :
    s.halt.memRead x = s.memRead x := rfl
@[simp] theorem State.raise_getReg (s : State) (e : ErrorClass) (v : Word) (i : Reg) :
    (s.raise e v).getReg i = s.getReg i := rfl
@[simp] theorem State.raise_memRead (s : State) (e : ErrorClass) (v : Word) (x : Value) :
    (s.raise e v).memRead x = s.memRead x := rfl
@[simp] theorem State.pushEntry_getReg (s : State) (v : Word) (i : Reg) :
    (s.pushEntry v).getReg i = s.getReg i := rfl
@[simp] theorem State.pushEntry_memRead (s : State) (v : Word) (x : Value) :
    (s.pushEntry v).memRead x = s.memRead x := rfl
@[simp] theorem State.emit_getReg (s : State) (c : Code) (i : Reg) :
    (s.emit c).getReg i = s.getReg i := rfl
@[simp] theorem State.emit_memRead (s : State) (c : Code) (x : Value) :
    (s.emit c).memRead x = s.memRead x := rfl

end Sys2Proof.Machine
end

