-- ==== Sys2Proof/Laws/Operands.lean ====
section
/-!
SUPPORT. The operand resolutions and the ALU's results as numbers.
-/

namespace Sys2Proof.Machine

/-! ### Widths -/

@[simp] theorem reduce_widen (v : Value) : reduce (widen v) = v := by
  apply BitVec.eq_of_toNat_eq
  simp only [reduce, widen, BitVec.toNat_setWidth]
  have := v.isLt
  omega

theorem toNat_reduce (w : Word) : (reduce w).toNat = w.toNat % 32768 := by
  simp [reduce, BitVec.toNat_setWidth]

theorem toNat_widen (v : Value) : (widen v).toNat = v.toNat := by
  simp only [widen, BitVec.toNat_setWidth]
  have := v.isLt
  omega

theorem toNat_widen_lt (v : Value) : (widen v).toNat < 32768 := by
  rw [toNat_widen]
  exact v.isLt

/-! ### Registers -/

@[simp] theorem State.getReg_setReg_same (s : State) (r : Reg) (v : Value) :
    (s.setReg r v).getReg r = v := by
  simp [State.getReg, State.setReg]

theorem State.getReg_setReg_other (s : State) {r i : Reg} (v : Value) (h : r ≠ i) :
    (s.setReg r v).getReg i = s.getReg i := by
  have h' : r.val ≠ i.val := fun e => h (Fin.ext e)
  simp [State.getReg, State.setReg, h']

/-! ### Reading an operand -/

@[simp] theorem State.readOp_lit (s : State) (v : Value) : s.readOp (.lit v) = v := rfl
@[simp] theorem State.readOp_reg (s : State) (r : Reg) : s.readOp (.reg r) = s.getReg r := rfl

/-- A read operand sees only the registers. -/
theorem State.readOp_congr {s t : State} (h : t.regs = s.regs) (op : Operand) :
    t.readOp op = s.readOp op := by
  cases op <;> simp [State.readOp, State.getReg, h]

/-! ### Storing to a destination -/

@[simp] theorem State.store_reg (s : State) (r : Reg) (v : Word) :
    s.store (.reg r) v = s.setReg r (reduce v) := rfl
@[simp] theorem State.store_lit (s : State) (n : Value) (v : Word) :
    s.store (.lit n) v = s.memWrite n v := rfl

@[simp] theorem State.store_stack (s : State) (op : Operand) (v : Word) :
    (s.store op v).stack = s.stack := by cases op <;> rfl
@[simp] theorem State.store_pc (s : State) (op : Operand) (v : Word) :
    (s.store op v).pc = s.pc := by cases op <;> rfl
@[simp] theorem State.store_run (s : State) (op : Operand) (v : Word) :
    (s.store op v).run = s.run := by cases op <;> rfl
@[simp] theorem State.store_errCode (s : State) (op : Operand) (v : Word) :
    (s.store op v).errCode = s.errCode := by cases op <;> rfl
@[simp] theorem State.store_errValue (s : State) (op : Operand) (v : Word) :
    (s.store op v).errValue = s.errValue := by cases op <;> rfl
@[simp] theorem State.store_inBuf (s : State) (op : Operand) (v : Word) :
    (s.store op v).inBuf = s.inBuf := by cases op <;> rfl
@[simp] theorem State.store_outStream (s : State) (op : Operand) (v : Word) :
    (s.store op v).outStream = s.outStream := by cases op <;> rfl
@[simp] theorem State.store_inStream (s : State) (op : Operand) (v : Word) :
    (s.store op v).inStream = s.inStream := by cases op <;> rfl
@[simp] theorem State.store_lineTrace (s : State) (op : Operand) (v : Word) :
    (s.store op v).lineTrace = s.lineTrace := by cases op <;> rfl
@[simp] theorem State.store_stackCapacity (s : State) (op : Operand) (v : Word) :
    (s.store op v).stackCapacity = s.stackCapacity := by cases op <;> rfl
@[simp] theorem State.store_hostInput (s : State) (op : Operand) (v : Word) :
    (s.store op v).hostInput = s.hostInput := by cases op <;> rfl

theorem State.store_mem_wf {s : State} (op : Operand) (v : Word) (h : s.mem.wf = true) :
    (s.store op v).mem.wf = true := by
  cases op with
  | reg r => exact h
  | lit n => exact State.memWrite_wf n v h

/-! ### The ALU's results -/

theorem toNat_narrow (n : Nat) : (narrow n).toNat = n % 32768 := by
  simp [narrow, BitVec.toNat_ofNat]

theorem toNat_aluAdd (b c : Value) : (aluAdd b c).toNat = (b.toNat + c.toNat) % 32768 :=
  toNat_narrow _

theorem toNat_aluMult (b c : Value) : (aluMult b c).toNat = (b.toNat * c.toNat) % 32768 :=
  toNat_narrow _

theorem toNat_aluMod (b c : Value) : (aluMod b c).toNat = b.toNat % c.toNat := by
  have hb := b.isLt
  have hle := Nat.mod_le b.toNat c.toNat
  rw [aluMod, toNat_narrow, Nat.mod_eq_of_lt (by omega)]

theorem toNat_aluAnd (b c : Value) : (aluAnd b c).toNat = b.toNat &&& c.toNat :=
  BitVec.toNat_and ..

theorem toNat_aluOr (b c : Value) : (aluOr b c).toNat = b.toNat ||| c.toNat :=
  BitVec.toNat_or ..

theorem toNat_aluNot (b : Value) : (aluNot b).toNat = 32767 - b.toNat := by
  have h : (32767 : Value) = BitVec.allOnes 15 := by decide
  rw [aluNot, h, BitVec.xor_allOnes, BitVec.toNat_not]

theorem aluNot_aluNot (b : Value) : aluNot (aluNot b) = b := by
  simp [aluNot]

end Sys2Proof.Machine
end

