-- ==== Sys2Proof/Laws/Ops.lean ====
section
/-!
SUPPORT. The stack and the input channel: everything each shared operation can do, said once.
-/

namespace Sys2Proof.Machine

/-! ### Stack -/

theorem State.stackFull_iff (s : State) :
    s.stackFull = true ↔ s.stackCapacity = some s.stack.length := by
  simp [State.stackFull]

theorem State.push_of_full {s : State} (v : Word) (h : s.stackCapacity = some s.stack.length) :
    s.push v = none := by
  simp [State.push, State.stackFull, h]

theorem State.push_of_room {s : State} (v : Word) (h : s.stackCapacity ≠ some s.stack.length) :
    s.push v = some (s.pushEntry v) := by
  simp [State.push, State.stackFull, h]

/-- `push` answers the pushed state where there is room, and nothing where there is none. -/
theorem State.push_cases (s : State) (v : Word) :
    (s.stackCapacity = some s.stack.length ∧ s.push v = none) ∨
      (s.stackCapacity ≠ some s.stack.length ∧ s.push v = some (s.pushEntry v)) := by
  by_cases h : s.stackCapacity = some s.stack.length
  · exact .inl ⟨h, State.push_of_full v h⟩
  · exact .inr ⟨h, State.push_of_room v h⟩

theorem State.pop_of_empty {s : State} (h : s.stack = []) : s.pop = none := by
  simp [State.pop, h]

theorem State.pop_of_cons {s : State} {v : Word} {rest : List Word} (h : s.stack = v :: rest) :
    s.pop = some (v, { s with stack := rest }) := by
  simp [State.pop, h]

/-- `pop` fails on the empty stack only, and else takes the top entry off. -/
theorem State.pop_cases (s : State) :
    (s.stack = [] ∧ s.pop = none) ∨
      ∃ v rest, s.stack = v :: rest ∧ s.pop = some (v, { s with stack := rest }) := by
  cases h : s.stack with
  | nil => exact .inl ⟨rfl, State.pop_of_empty h⟩
  | cons v rest => exact .inr ⟨v, rest, rfl, State.pop_of_cons h⟩

/-! ### Lines -/

theorem takeLine_cons_end (rest : List Code) :
    takeLine (Config.lineTerminator :: rest) = some ([Config.lineTerminator], rest) := by
  rw [takeLine, if_pos rfl]

theorem takeLine_cons_other {c : Code} (rest : List Code) (h : c ≠ Config.lineTerminator) :
    takeLine (c :: rest) = (takeLine rest).map (fun p => (c :: p.1, p.2)) := by
  rw [takeLine, if_neg h]
  cases takeLine rest <;> rfl

/-- A body without terminator, the terminator, and what follows: that is one line and the rest. -/
theorem takeLine_append (body after : List Code) (h : Config.lineTerminator ∉ body) :
    takeLine (body ++ Config.lineTerminator :: after) =
      some (body ++ [Config.lineTerminator], after) := by
  induction body with
  | nil => exact takeLine_cons_end after
  | cons c body ih =>
    simp only [List.mem_cons, not_or] at h
    rw [List.cons_append, takeLine_cons_other _ (Ne.symm h.1), ih h.2]
    rfl

/-- No terminator, no line. -/
theorem takeLine_eq_none_iff (codes : List Code) :
    takeLine codes = none ↔ Config.lineTerminator ∉ codes := by
  induction codes with
  | nil => simp [takeLine]
  | cons c rest ih =>
    by_cases hc : c = Config.lineTerminator
    · subst hc
      simp [takeLine_cons_end]
    · simp [takeLine_cons_other rest hc, ih, Ne.symm hc]

/-- A line taken is a body without terminator, then the terminator, and the rest follows it. -/
theorem takeLine_eq_some {codes line after : List Code} (h : takeLine codes = some (line, after)) :
    codes = line ++ after ∧
      ∃ body, line = body ++ [Config.lineTerminator] ∧ Config.lineTerminator ∉ body := by
  induction codes generalizing line after with
  | nil => simp [takeLine] at h
  | cons c rest ih =>
    by_cases hc : c = Config.lineTerminator
    · subst hc
      rw [takeLine_cons_end, Option.some.injEq, Prod.mk.injEq] at h
      obtain ⟨rfl, rfl⟩ := h
      exact ⟨rfl, [], by simp⟩
    · rw [takeLine_cons_other rest hc, Option.map_eq_some_iff] at h
      obtain ⟨⟨l, r⟩, hr, he⟩ := h
      obtain ⟨rfl, rfl⟩ := Prod.mk.inj he
      obtain ⟨hcodes, body, rfl, hbody⟩ := ih hr
      exact ⟨by simp [hcodes], c :: body, by simp, by simp [hbody, Ne.symm hc]⟩

/-! ### Next input code -/

theorem State.nextInput_of_cons {s : State} {c : Code} {rest : List Code}
    (h : s.inBuf = c :: rest) :
    s.nextInput = some (c, { s with inBuf := rest, inStream := s.inStream ++ [c] }) := by
  simp [State.nextInput, State.dequeue, h]

theorem State.nextInput_of_line {s : State} {c : Code} {rest after : List Code}
    (h : s.inBuf = []) (hl : takeLine s.hostInput = some (c :: rest, after)) :
    s.nextInput = some (c, { s with
      inBuf := rest, hostInput := after, lineTrace := s.lineTrace ++ [c :: rest],
      inStream := s.inStream ++ [c] }) := by
  simp [State.nextInput, State.refill, State.dequeue, h, hl]

theorem State.nextInput_of_wait {s : State} (h : s.inBuf = [])
    (hl : takeLine s.hostInput = none) : s.nextInput = none := by
  simp [State.nextInput, State.refill, h, hl]

/-- Everything `next_input()` can do (R85): the oldest buffered code; or, with an empty buffer, a line
requested and its first code; or the wait. -/
theorem State.nextInput_cases (s : State) :
    (∃ c rest, s.inBuf = c :: rest ∧
      s.nextInput = some (c, { s with inBuf := rest, inStream := s.inStream ++ [c] })) ∨
    (∃ c rest after, s.inBuf = [] ∧ takeLine s.hostInput = some (c :: rest, after) ∧
      s.nextInput = some (c, { s with
        inBuf := rest, hostInput := after, lineTrace := s.lineTrace ++ [c :: rest],
        inStream := s.inStream ++ [c] })) ∨
    (s.inBuf = [] ∧ takeLine s.hostInput = none ∧ s.nextInput = none) := by
  cases hb : s.inBuf with
  | cons c rest => exact .inl ⟨c, rest, rfl, State.nextInput_of_cons hb⟩
  | nil =>
    cases hl : takeLine s.hostInput with
    | none => exact .inr (.inr ⟨rfl, rfl, State.nextInput_of_wait hb hl⟩)
    | some p =>
      obtain ⟨line, after⟩ := p
      obtain ⟨-, body, hline, -⟩ := takeLine_eq_some hl
      cases line with
      | nil => simp at hline
      | cons c rest => exact .inr (.inl ⟨c, rest, after, rfl, rfl, State.nextInput_of_line hb hl⟩)

/-- What `next_input()` leaves alone; and it neither loses nor reorders a code. -/
theorem State.nextInput_leaves {s u : State} {c : Code} (h : s.nextInput = some (c, u)) :
    u.mem = s.mem ∧ u.regs = s.regs ∧ u.stack = s.stack ∧ u.pc = s.pc ∧ u.run = s.run ∧
      u.errCode = s.errCode ∧ u.errValue = s.errValue ∧ u.outStream = s.outStream ∧
      u.stackCapacity = s.stackCapacity ∧
      u.inStream ++ u.inBuf ++ u.hostInput = s.inStream ++ s.inBuf ++ s.hostInput := by
  obtain ⟨c', rest, hb, hn⟩ | ⟨c', rest, after, hb, hl, hn⟩ | ⟨-, -, hn⟩ := s.nextInput_cases
  · rw [hn] at h
    cases h
    exact ⟨rfl, rfl, rfl, rfl, rfl, rfl, rfl, rfl, rfl, by simp [hb]⟩
  · rw [hn] at h
    cases h
    exact ⟨rfl, rfl, rfl, rfl, rfl, rfl, rfl, rfl, rfl, by simp [hb, (takeLine_eq_some hl).1]⟩
  · rw [hn] at h
    cases h

end Sys2Proof.Machine
end

