-- ==== Sys2Proof/Laws/Exec.lean ====
section
/-!
SUPPORT. Everything an instruction and a step can do, said once: when `exec` answers a next state, it is
one of the effects below.
-/

namespace Sys2Proof.Machine

/-- The effects of the 22 instructions, with what each says of the instruction and the state. -/
inductive Effect (i : Instr) (s : State) : State → Prop
  /-- An error of the instruction's own: POP underflow, MOD by 0, PUSH or CALL overflow. -/
  | raised (e : ErrorClass)
      (cause : (∃ a, i = .pop a ∧ s.stack = [] ∧ e = .stackUnderflow) ∨
        (∃ a b c, i = .mod a b c ∧ s.readOp c = 0 ∧ e = .divisionByZero) ∨
        (∃ a, i = .push a ∧ s.stackCapacity = some s.stack.length ∧ e = .stackOverflow) ∨
        (∃ a, i = .call a ∧ s.stackCapacity = some s.stack.length ∧ e = .stackOverflow)) :
      Effect i s (s.raise e 0)
  /-- HALT, or RET on the empty stack. -/
  | halted (cause : i = .halt ∨ (i = .ret ∧ s.stack = [])) : Effect i s (s.halt.advance 1)
  /-- Only the pc advances: NOOP, JT and JF not taken. -/
  | moved (n : Nat) (len : n = (encode i).length)
      (cause : i = .noop ∨ (∃ a b, i = .jt a b) ∨ ∃ a b, i = .jf a b) :
      Effect i s (s.advance n)
  /-- A jump taken: JMP, JT, JF. -/
  | jumped (v : Value) (cause : (∃ a, i = .jmp a) ∨ (∃ a b, i = .jt a b) ∨ ∃ a b, i = .jf a b) :
      Effect i s (s.setPc (widen v))
  /-- A value stored to the destination: SET, EQ, GT, ADD, MULT, MOD, AND, OR, NOT, RMEM. -/
  | stored (a : Operand) (v : Word) (n : Nat) (dest : i.dest = some a)
      (len : n = (encode i).length) (notPop : ∀ o, i ≠ .pop o) (notIn : ∀ o, i ≠ .inp o) :
      Effect i s ((s.store a v).advance n)
  /-- POP. -/
  | popped (a : Operand) (v : Word) (rest : List Word) (is : i = .pop a)
      (top : s.stack = v :: rest) :
      Effect i s ((State.store { s with stack := rest } a v).advance 2)
  /-- WMEM. -/
  | wrote (a b : Operand) (is : i = .wmem a b) :
      Effect i s ((s.memWrite (s.readOp a) (widen (s.readOp b))).advance 3)
  /-- PUSH. -/
  | pushed (a : Operand) (is : i = .push a) (room : s.stackCapacity ≠ some s.stack.length) :
      Effect i s ((s.pushEntry (widen (s.readOp a))).advance 2)
  /-- CALL. -/
  | called (a : Operand) (is : i = .call a) (room : s.stackCapacity ≠ some s.stack.length) :
      Effect i s ((s.pushEntry (s.pc + 2)).setPc (widen (s.readOp a)))
  /-- RET with a return address. -/
  | returned (v : Word) (rest : List Word) (is : i = .ret) (top : s.stack = v :: rest) :
      Effect i s (State.setPc { s with stack := rest } v)
  /-- OUT. -/
  | emitted (a : Operand) (is : i = .out a) :
      Effect i s ((s.emit ((s.readOp a).setWidth 8)).advance 2)
  /-- IN. -/
  | input (a : Operand) (c : Code) (u : State) (is : i = .inp a)
      (code : s.nextInput = some (c, u)) :
      Effect i s ((u.store a (c.setWidth 16)).advance 2)

/-- A next state of `exec` is one of the effects. -/
theorem exec_effect {i : Instr} {s t : State} (h : exec i s = .next t) : Effect i s t := by
  cases i with
  | halt => cases h; exact .halted (.inl rfl)
  | noop => cases h; exact .moved 1 rfl (.inl rfl)
  | jmp a => cases h; exact .jumped _ (.inl ⟨a, rfl⟩)
  | out a => cases h; exact .emitted a rfl
  | wmem a b => cases h; exact .wrote a b rfl
  | set a b | not a b | rmem a b => cases h; exact .stored a _ 3 rfl rfl (by simp) (by simp)
  | eq a b c | gt a b c | add a b c | mult a b c | and a b c | or a b c =>
    cases h; exact .stored a _ 4 rfl rfl (by simp) (by simp)
  | jt a b =>
    simp only [exec, execJt] at h
    split at h <;> cases h
    · exact .jumped _ (.inr (.inl ⟨a, b, rfl⟩))
    · exact .moved 3 rfl (.inr (.inl ⟨a, b, rfl⟩))
  | jf a b =>
    simp only [exec, execJf] at h
    split at h <;> cases h
    · exact .jumped _ (.inr (.inr ⟨a, b, rfl⟩))
    · exact .moved 3 rfl (.inr (.inr ⟨a, b, rfl⟩))
  | mod a b c =>
    simp only [exec, execMod] at h
    split at h <;> cases h
    · next hc => exact .raised _ (.inr (.inl ⟨a, b, c, rfl, hc, rfl⟩))
    · exact .stored a _ 4 rfl rfl (by simp) (by simp)
  | push a =>
    obtain ⟨hf, hp⟩ | ⟨hr, hp⟩ := s.push_cases (widen (s.readOp a)) <;>
      simp only [exec, execPush, hp] at h <;> cases h
    · exact .raised _ (.inr (.inr (.inl ⟨a, rfl, hf, rfl⟩)))
    · exact .pushed a rfl hr
  | call a =>
    obtain ⟨hf, hp⟩ | ⟨hr, hp⟩ := s.push_cases (s.pc + 2) <;>
      simp only [exec, execCall, hp] at h <;> cases h
    · exact .raised _ (.inr (.inr (.inr ⟨a, rfl, hf, rfl⟩)))
    · exact .called a rfl hr
  | pop a =>
    obtain ⟨he, hp⟩ | ⟨v, rest, ht, hp⟩ := s.pop_cases <;>
      simp only [exec, execPop, hp] at h <;> cases h
    · exact .raised _ (.inl ⟨a, rfl, he, rfl⟩)
    · exact .popped a v rest rfl ht
  | ret =>
    obtain ⟨he, hp⟩ | ⟨v, rest, ht, hp⟩ := s.pop_cases <;>
      simp only [exec, execRet, hp] at h <;> cases h
    · exact .halted (.inr ⟨rfl, he⟩)
    · exact .returned v rest rfl ht
  | inp a =>
    cases hn : s.nextInput with
    | none => simp [exec, execIn, hn] at h
    | some p =>
      obtain ⟨c, u⟩ := p
      simp only [exec, execIn, hn] at h
      cases h
      exact .input a c u rfl hn

/-- `exec` answers a next state, or it is IN waiting for a line. -/
theorem exec_next_or_wait (i : Instr) (s : State) :
    (∃ t, exec i s = .next t) ∨
      (exec i s = .fault .inputWait ∧ (∃ a, i = .inp a) ∧ s.inBuf = [] ∧
        takeLine s.hostInput = none) := by
  cases i with
  | jt a b => left; simp only [exec, execJt]; split <;> exact ⟨_, rfl⟩
  | jf a b => left; simp only [exec, execJf]; split <;> exact ⟨_, rfl⟩
  | mod a b c => left; simp only [exec, execMod]; split <;> exact ⟨_, rfl⟩
  | push a => left; simp only [exec, execPush]; split <;> exact ⟨_, rfl⟩
  | call a => left; simp only [exec, execCall]; split <;> exact ⟨_, rfl⟩
  | pop a => left; simp only [exec, execPop]; split <;> exact ⟨_, rfl⟩
  | ret => left; simp only [exec, execRet]; split <;> exact ⟨_, rfl⟩
  | inp a =>
    obtain ⟨c, rest, -, hn⟩ | ⟨c, rest, after, -, -, hn⟩ | ⟨hb, hl, hn⟩ := s.nextInput_cases
    · exact .inl ⟨_, by simp only [exec, execIn, hn]; rfl⟩
    · exact .inl ⟨_, by simp only [exec, execIn, hn]; rfl⟩
    · exact .inr ⟨by simp only [exec, execIn, hn], ⟨a, rfl⟩, hb, hl⟩
  | _ => exact .inl ⟨_, rfl⟩

/-! ### Steps -/

theorem step_running {s : State} (h : s.run = .running) : step s = s.fetchThen exec := by
  simp [step, h]

theorem step_of_fetch_ok {s : State} {i : Instr} (h : s.run = .running) (hf : s.fetch = .ok i) :
    step s = exec i s := by
  simp [step_running h, State.fetchThen, hf]

theorem step_of_fetch_error {s : State} {e : ErrorClass} {v : Word} (h : s.run = .running)
    (hf : s.fetch = .error (e, v)) : step s = .next (s.raise e v) := by
  simp [step_running h, State.fetchThen, hf]

/-- A next state of `step` comes from RUNNING, and is the fetched instruction's or the error the fetch
raised. -/
theorem step_next_cases {s t : State} (h : step s = .next t) :
    s.run = .running ∧
      ((∃ i, s.fetch = .ok i ∧ exec i s = .next t) ∨
        ∃ e v, s.fetch = .error (e, v) ∧ t = s.raise e v) := by
  cases hr : s.run with
  | halted => simp [step, hr] at h
  | errored => simp [step, hr] at h
  | running =>
    refine ⟨rfl, ?_⟩
    cases hf : s.fetch with
    | ok i => exact .inl ⟨i, rfl, by rw [← step_of_fetch_ok hr hf, h]⟩
    | error p =>
      obtain ⟨e, v⟩ := p
      rw [step_of_fetch_error hr hf] at h
      cases h
      exact .inr ⟨e, v, rfl, rfl⟩

end Sys2Proof.Machine
end

