-- ==== Sys2Proof/Laws/Fetch.lean ====
section
/-!
SUPPORT. The fetch window, and what the fetch answers.
-/

namespace Sys2Proof.Machine

theorem State.fetchWindow_length (s : State) :
    s.fetchWindow.length = min 4 (32768 - s.pc.toNat) := by
  simp [State.fetchWindow]

/-- The k-th word of the window is the memory word at pc + k. -/
theorem State.fetchWindow_get (s : State) (k : Nat) (h : k < min 4 (32768 - s.pc.toNat)) :
    s.fetchWindow[k]? = some (s.mem.read (s.pc.toNat + k)) := by
  simp [State.fetchWindow, h]

theorem State.fetch_of_decode {s : State} {i : Instr} {rest : List Word}
    (h : decode s.fetchWindow = .ok (i, rest)) : s.fetch = .ok i := by
  simp [State.fetch, h]

theorem State.decode_of_fetch {s : State} {i : Instr} (h : s.fetch = .ok i) :
    ∃ rest, decode s.fetchWindow = .ok (i, rest) := by
  unfold State.fetch at h
  split at h <;> cases h
  next rest hd => exact ⟨rest, hd⟩

/-- An error of the fetch names an error class. -/
theorem State.fetch_error_ne {s : State} {e : ErrorClass} {v : Word}
    (h : s.fetch = .error (e, v)) : e ≠ .noError := by
  unfold State.fetch at h
  split at h <;> cases h <;> simp

end Sys2Proof.Machine
end

