-- ==== Sys2Proof/Laws/Frames.lean ====
section
/-!
SUPPORT. What a store to a destination followed by the advance of the pc does, said once for every
instruction that has a destination.
-/

namespace Sys2Proof.Machine

theorem SameRest.refl (s : State) : SameRest s s := by constructor <;> rfl

theorem DestFrame.advance {a : Operand} {s t : State} (n : Nat) (h : DestFrame a s t) :
    DestFrame a s (t.advance n) :=
  ⟨h.regs, h.mem, ⟨h.rest.stack, h.rest.run, h.rest.errCode, h.rest.errValue, h.rest.inBuf,
    h.rest.outStream, h.rest.inStream, h.rest.lineTrace, h.rest.stackCapacity, h.rest.hostInput⟩⟩

/-- A destination holds what was stored to it, mod 32768 (R14, R53). -/
theorem State.destNat_store (s : State) (a : Operand) (v : Word) :
    (s.store a v).destNat a = v.toNat % 32768 := by
  cases a with
  | reg r => simp [State.destNat, toNat_reduce]
  | lit n => simp [State.destNat, State.memRead_memWrite_same, toNat_widen, toNat_reduce]

/-- A store changes its destination only. -/
theorem State.store_frame (s : State) (a : Operand) (v : Word) : DestFrame a s (s.store a v) := by
  refine ⟨fun r h => ?_, fun n h => ?_, by constructor <;> simp⟩
  · cases a with
    | reg i => exact State.getReg_setReg_other s _ (fun e => h (by rw [e]))
    | lit n => rfl
  · cases a with
    | reg i => rfl
    | lit k => exact State.memRead_memWrite_other s _ (fun e => h (by rw [e]))

/-- The common end of every instruction with a destination. -/
theorem State.store_advance_writesDest (s : State) (a : Operand) (v : Word) (len : Nat) :
    WritesDest a (v.toNat % 32768) len s ((s.store a v).advance len) := by
  refine ⟨?_, by simp, (s.store_frame a v).advance len⟩
  have h := s.destNat_store a v
  cases a <;> exact h

/-- The same for a value the ALU gives. -/
theorem State.store_widen_writesDest (s : State) (a : Operand) (v : Value) (len : Nat) :
    WritesDest a v.toNat len s ((s.store a (widen v)).advance len) := by
  have h := s.store_advance_writesDest a (widen v) len
  rwa [toNat_widen, Nat.mod_eq_of_lt v.isLt] at h

end Sys2Proof.Machine
end

