-- ==== Sys2Proof/Laws/PerInstr.lean ====
section
/-!
SUPPORT. Per instruction, as syntax: the words the encoder writes are well-formed (R48, R51, R56).
-/

namespace Sys2Proof.Laws

/-- The words of the instruction pass the check on words. -/
def EncodesWellFormed.Statement (i : Instr) : Prop := wordsWellFormed (encode i) = true

theorem operandWordLegal_toWord (o : Operand) : operandWordLegal o.toWord = true :=
  decide_eq_true o.toWord_lt

theorem EncodesWellFormed.halt : EncodesWellFormed.Statement .halt := rfl

theorem EncodesWellFormed.set (a b : Operand) : EncodesWellFormed.Statement (.set a b) := by
  simp [EncodesWellFormed.Statement, encode, wordsWellFormed, operandCounts, operandWordLegal_toWord]

theorem EncodesWellFormed.push (a : Operand) : EncodesWellFormed.Statement (.push a) := by
  simp [EncodesWellFormed.Statement, encode, wordsWellFormed, operandCounts, operandWordLegal_toWord]

theorem EncodesWellFormed.pop (a : Operand) : EncodesWellFormed.Statement (.pop a) := by
  simp [EncodesWellFormed.Statement, encode, wordsWellFormed, operandCounts, operandWordLegal_toWord]

theorem EncodesWellFormed.eq (a b c : Operand) : EncodesWellFormed.Statement (.eq a b c) := by
  simp [EncodesWellFormed.Statement, encode, wordsWellFormed, operandCounts, operandWordLegal_toWord]

theorem EncodesWellFormed.gt (a b c : Operand) : EncodesWellFormed.Statement (.gt a b c) := by
  simp [EncodesWellFormed.Statement, encode, wordsWellFormed, operandCounts, operandWordLegal_toWord]

theorem EncodesWellFormed.jmp (a : Operand) : EncodesWellFormed.Statement (.jmp a) := by
  simp [EncodesWellFormed.Statement, encode, wordsWellFormed, operandCounts, operandWordLegal_toWord]

theorem EncodesWellFormed.jt (a b : Operand) : EncodesWellFormed.Statement (.jt a b) := by
  simp [EncodesWellFormed.Statement, encode, wordsWellFormed, operandCounts, operandWordLegal_toWord]

theorem EncodesWellFormed.jf (a b : Operand) : EncodesWellFormed.Statement (.jf a b) := by
  simp [EncodesWellFormed.Statement, encode, wordsWellFormed, operandCounts, operandWordLegal_toWord]

theorem EncodesWellFormed.add (a b c : Operand) : EncodesWellFormed.Statement (.add a b c) := by
  simp [EncodesWellFormed.Statement, encode, wordsWellFormed, operandCounts, operandWordLegal_toWord]

theorem EncodesWellFormed.mult (a b c : Operand) : EncodesWellFormed.Statement (.mult a b c) := by
  simp [EncodesWellFormed.Statement, encode, wordsWellFormed, operandCounts, operandWordLegal_toWord]

theorem EncodesWellFormed.mod (a b c : Operand) : EncodesWellFormed.Statement (.mod a b c) := by
  simp [EncodesWellFormed.Statement, encode, wordsWellFormed, operandCounts, operandWordLegal_toWord]

theorem EncodesWellFormed.and (a b c : Operand) : EncodesWellFormed.Statement (.and a b c) := by
  simp [EncodesWellFormed.Statement, encode, wordsWellFormed, operandCounts, operandWordLegal_toWord]

theorem EncodesWellFormed.or (a b c : Operand) : EncodesWellFormed.Statement (.or a b c) := by
  simp [EncodesWellFormed.Statement, encode, wordsWellFormed, operandCounts, operandWordLegal_toWord]

theorem EncodesWellFormed.not (a b : Operand) : EncodesWellFormed.Statement (.not a b) := by
  simp [EncodesWellFormed.Statement, encode, wordsWellFormed, operandCounts, operandWordLegal_toWord]

theorem EncodesWellFormed.rmem (a b : Operand) : EncodesWellFormed.Statement (.rmem a b) := by
  simp [EncodesWellFormed.Statement, encode, wordsWellFormed, operandCounts, operandWordLegal_toWord]

theorem EncodesWellFormed.wmem (a b : Operand) : EncodesWellFormed.Statement (.wmem a b) := by
  simp [EncodesWellFormed.Statement, encode, wordsWellFormed, operandCounts, operandWordLegal_toWord]

theorem EncodesWellFormed.call (a : Operand) : EncodesWellFormed.Statement (.call a) := by
  simp [EncodesWellFormed.Statement, encode, wordsWellFormed, operandCounts, operandWordLegal_toWord]

theorem EncodesWellFormed.ret : EncodesWellFormed.Statement .ret := rfl

theorem EncodesWellFormed.out (a : Operand) : EncodesWellFormed.Statement (.out a) := by
  simp [EncodesWellFormed.Statement, encode, wordsWellFormed, operandCounts, operandWordLegal_toWord]

theorem EncodesWellFormed.inp (a : Operand) : EncodesWellFormed.Statement (.inp a) := by
  simp [EncodesWellFormed.Statement, encode, wordsWellFormed, operandCounts, operandWordLegal_toWord]

theorem EncodesWellFormed.noop : EncodesWellFormed.Statement .noop := rfl

end Sys2Proof.Laws
end

