-- ==== Sys2Proof/Laws/Ports.lean ====
section
/-!
SUPPORT. Image words in memory, a step request, and `run`.
-/

namespace Sys2Proof.Machine

/-- What loading words from address `k` on leaves at every address, when they fit. -/
theorem State.loadWords_read (s : State) (k : Nat) (ws : List Word) (hk : k + ws.length ≤ 32768)
    (a : Nat) :
    (s.loadWords k ws).mem.read a =
      if k ≤ a ∧ a < k + ws.length then ws[a - k]?.getD 0 else s.mem.read a := by
  induction ws generalizing s k with
  | nil => rw [if_neg (by simp), State.loadWords]
  | cons w ws ih =>
    simp only [List.length_cons] at hk
    have hlt : k < Config.memWords := by
      show k < 32768
      omega
    rw [State.loadWords, if_pos hlt, ih (s.loadWord k w) (k + 1) (by omega)]
    by_cases h : a = k
    · subst h
      rw [if_neg (by omega), if_pos (by simp)]
      simp [State.loadWord, Memory.read_write_same]
    · by_cases h2 : k + 1 ≤ a ∧ a < k + 1 + ws.length
      · rw [if_pos h2, if_pos (by simp only [List.length_cons]; omega)]
        obtain ⟨d, rfl⟩ : ∃ d, a = k + 1 + d := ⟨a - (k + 1), by omega⟩
        simp [show k + 1 + d - k = d + 1 by omega]
      · rw [if_neg h2, if_neg (by simp only [List.length_cons]; omega)]
        exact Memory.read_write_other _ w (Ne.symm h)

/-- Loading words changes memory only. -/
theorem State.loadWords_rest (s : State) (k : Nat) (ws : List Word) :
    { s.loadWords k ws with mem := s.mem } = s := by
  induction ws generalizing s k with
  | nil => rfl
  | cons w ws ih =>
    unfold State.loadWords
    split
    · have h := ih (s.loadWord k w) (k + 1)
      exact congrArg (fun t : State => { t with mem := s.mem }) h
    · rfl

/-- A step request is the next state, or nothing at all. -/
theorem State.request_cases (s : State) :
    step s = .next s.request ∨ ((∃ f, step s = .fault f) ∧ s.request = s) ∨
      ((∃ r, step s = .refused r) ∧ s.request = s) := by
  cases h : step s with
  | next t => exact .inl (by simp [State.request, h])
  | fault f => exact .inr (.inl ⟨⟨f, rfl⟩, by simp [State.request, h]⟩)
  | refused r => exact .inr (.inr ⟨⟨r, rfl⟩, by simp [State.request, h]⟩)

/-- `run` leaves a terminal state as it is (R22). -/
theorem State.runFor_of_terminal {s : State} (h : s.run ≠ .running) (fuel : Nat) :
    s.runFor fuel = s := by
  cases fuel with
  | zero => rfl
  | succ k => rw [State.runFor, if_neg h]

/-! ### The wait of IN -/

theorem State.waitsForLine_iff (s : State) :
    s.waitsForLine = true ↔ step s = .fault .inputWait := by
  unfold State.waitsForLine
  split <;> simp_all

/-- The wait, as R85 and R99 say it: RUNNING, an IN at pc, an empty buffer, no complete line to come. -/
theorem State.waitsForLine_iff_in (s : State) :
    s.waitsForLine = true ↔ s.run = .running ∧ (∃ a, s.fetch = .ok (.inp a)) ∧ s.inBuf = [] ∧
      Config.lineTerminator ∉ s.hostInput := by
  rw [State.waitsForLine_iff]
  constructor
  · intro h
    have hr : s.run = .running := by
      cases hr : s.run <;> simp [step, hr] at h ⊢
    cases hf : s.fetch with
    | error p => rw [step_of_fetch_error (e := p.1) (v := p.2) hr hf] at h; cases h
    | ok i =>
      rw [step_of_fetch_ok hr hf] at h
      obtain ⟨t, ht⟩ | ⟨-, ⟨a, rfl⟩, hb, hl⟩ := exec_next_or_wait i s
      · rw [ht] at h; cases h
      · exact ⟨hr, ⟨a, rfl⟩, hb, (takeLine_eq_none_iff _).1 hl⟩
  · rintro ⟨hr, ⟨a, hf⟩, hb, hl⟩
    rw [step_of_fetch_ok hr hf]
    simp only [exec, execIn, State.nextInput_of_wait hb ((takeLine_eq_none_iff _).2 hl)]

/-- Codes to come that end no line leave a waiting IN waiting. -/
theorem State.waitsForLine_offer {s : State} (h : s.waitsForLine = true) {codes : List Code}
    (hc : Config.lineTerminator ∉ codes) :
    { s with hostInput := s.hostInput ++ codes }.waitsForLine = true := by
  obtain ⟨hr, hf, hb, hl⟩ := s.waitsForLine_iff_in.mp h
  exact (State.waitsForLine_iff_in _).mpr ⟨hr, hf, hb, by simp [hl, hc]⟩

/-- Starting an instruction: its next state; or an IN begins to wait; or nothing, in a terminal state. -/
theorem Block.start_cases (b : Block) :
    (∃ t, step b.core = .next t ∧ b.start = { b with core := t }) ∨
      (b.core.waitsForLine = true ∧ b.start = { b with inStarted := true }) ∨ b.start = b := by
  cases h : step b.core with
  | next t => exact .inl ⟨t, rfl, by simp [Block.start, h]⟩
  | refused r => exact .inr (.inr (by simp [Block.start, h]))
  | fault f =>
    cases f with
    | inputWait =>
      exact .inr (.inl ⟨b.core.waitsForLine_iff.mpr h, by simp [Block.start, h]⟩)
    | finalHalted => exact .inr (.inr (by simp [Block.start, h]))
    | finalErrored => exact .inr (.inr (by simp [Block.start, h]))

theorem Block.resume_of_next {b : Block} {t : State} (h : step b.core = .next t) :
    b.resume = { b with inStarted := false, core := t } := by
  simp [Block.resume, h]

theorem Block.resume_of_wait {b : Block} (h : b.core.waitsForLine = true) : b.resume = b := by
  simp [Block.resume, b.core.waitsForLine_iff.mp h]

/-! ### Host actions -/

@[simp] theorem Block.act_assertReset (b : Block) :
    b.act .assertReset = { b with rst := true, inStarted := false, core := b.core.afterReset } := rfl
@[simp] theorem Block.act_releaseReset (b : Block) :
    b.act .releaseReset = { b with rst := false } := rfl
@[simp] theorem Block.act_setStepEn (b : Block) (level : Bool) :
    b.act (.setStepEn level) = { b with stepEn := level } := rfl

/-- The block starts an instruction only outside reset, with `step_en` high and nothing started. -/
theorem Block.act_proceed_cases (b : Block) :
    (b.rst = false ∧ b.stepEn = true ∧ b.inStarted = false ∧ b.act .proceed = b.start) ∨
      b.act .proceed = b := by
  cases hr : b.rst <;> cases he : b.stepEn <;> cases hi : b.inStarted <;>
    simp [Block.act, hr, he, hi]

end Sys2Proof.Machine
end

