-- ==== Sys2Proof/Tests/Slice0.lean ====
section
/-!
SUPPORT. Tests of the model. Expected values are the vectors of spec/95_test_vectors.md, named in the
comments, or are worked out by hand from a rule. Then one witness for each statement with hypotheses.
-/

namespace Sys2Proof.Tests

open Sys2Proof.Machine

/-! ### Helpers -/

/-- The reset state with words at address 0. -/
def withWords (ws : List Word) : State := State.reset.loadWords 0 ws

/-- One step, and what is asked of the next state. -/
def stepAsk {α : Type} (s : State) (ask : State → α) : Option α := (nextOf (step s)).map ask

/-- Run state, error code, error value, pc. -/
def verdict (s : State) : RunState × BitVec 3 × Word × Word :=
  (s.run, s.errCode.code, s.errValue, s.pc)

/-! ### Well-formedness: each check refuses an ill-formed term -/

/-- R48, R51, R56: a well-formed instruction passes. -/
theorem test_wellFormed_accepts : wordsWellFormed [9, 32768, 32775, 32767] = true := by decide
/-- R56: no opcode word, an unknown opcode. -/
theorem test_wellFormed_refuses_opcode :
    wordsWellFormed [] = false ∧ wordsWellFormed [22] = false ∧
      wordsWellFormed [32768] = false := by decide
/-- R48: a missing and a surplus operand word. -/
theorem test_wellFormed_refuses_length :
    wordsWellFormed [1, 32768] = false ∧ wordsWellFormed [21, 0] = false := by decide
/-- R51: an operand word of 32776. -/
theorem test_wellFormed_refuses_operand : wordsWellFormed [19, 32776] = false := by decide

/-! ### Decoding: a word written out from R49 for every constructor -/

theorem test_decode_halt : decode [0] = .ok (.halt, []) := by rfl
theorem test_decode_set : decode [1, 100, 32770] = .ok (.set (.lit 100) (.reg 2), []) := by rfl
theorem test_decode_push : decode [2, 7] = .ok (.push (.lit 7), []) := by rfl
theorem test_decode_pop : decode [3, 32768] = .ok (.pop (.reg 0), []) := by rfl
theorem test_decode_eq :
    decode [4, 32769, 32768, 10] = .ok (.eq (.reg 1) (.reg 0) (.lit 10), []) := by rfl
theorem test_decode_gt :
    decode [5, 32770, 7, 3] = .ok (.gt (.reg 2) (.lit 7) (.lit 3), []) := by rfl
theorem test_decode_jmp : decode [6, 10] = .ok (.jmp (.lit 10), []) := by rfl
theorem test_decode_jt : decode [7, 32768, 3] = .ok (.jt (.reg 0) (.lit 3), []) := by rfl
theorem test_decode_jf : decode [8, 32769, 20] = .ok (.jf (.reg 1) (.lit 20), []) := by rfl
theorem test_decode_add :
    decode [9, 32768, 32769, 4] = .ok (.add (.reg 0) (.reg 1) (.lit 4), []) := by rfl
theorem test_decode_mult :
    decode [10, 32772, 32771, 32771] = .ok (.mult (.reg 4) (.reg 3) (.reg 3), []) := by rfl
theorem test_decode_mod :
    decode [11, 32772, 32771, 32768] = .ok (.mod (.reg 4) (.reg 3) (.reg 0), []) := by rfl
theorem test_decode_and :
    decode [12, 32770, 32768, 32769] = .ok (.and (.reg 2) (.reg 0) (.reg 1), []) := by rfl
theorem test_decode_or :
    decode [13, 32771, 32768, 32769] = .ok (.or (.reg 3) (.reg 0) (.reg 1), []) := by rfl
theorem test_decode_not : decode [14, 32769, 32768] = .ok (.not (.reg 1) (.reg 0), []) := by rfl
theorem test_decode_rmem : decode [15, 32770, 100] = .ok (.rmem (.reg 2) (.lit 100), []) := by rfl
theorem test_decode_wmem : decode [16, 100, 65] = .ok (.wmem (.lit 100) (.lit 65), []) := by rfl
theorem test_decode_call : decode [17, 5] = .ok (.call (.lit 5), []) := by rfl
theorem test_decode_ret : decode [18] = .ok (.ret, []) := by rfl
theorem test_decode_out : decode [19, 32775] = .ok (.out (.reg 7), []) := by rfl
theorem test_decode_inp : decode [20, 32768] = .ok (.inp (.reg 0), []) := by rfl
theorem test_decode_noop : decode [21] = .ok (.noop, []) := by rfl

/-- The table's numbering: the first word is the low bits, words past `nbits` are 0. -/
theorem test_decodeTableWord :
    decodeTableWord 16 1 = some (.set (.lit 0) (.lit 0)) ∧
      decodeTableWord 32 (32769 * 65536 + 3) = some (.pop (.reg 1)) ∧
      decodeTableWord 16 22 = none := by decide
/-- `withFetchWord` puts it where the next step runs it: POP r1 underflows on the reset stack. -/
theorem test_withFetchWord :
    stepAsk (State.reset.withFetchWord 32 (32769 * 65536 + 3)) verdict =
      some (.errored, 3, 0, 0) := by decide

/-! ### Fetch errors (95 B1) -/

/-- B1.1, B1.3. -/
theorem test_unknown_opcode :
    stepAsk (withWords [22]) verdict = some (.errored, 2, 22, 0) ∧
      stepAsk (withWords [32768]) verdict = some (.errored, 2, 32768, 0) := by decide
/-- B1.4, B1.6: the first invalid operand word; nothing written. -/
theorem test_invalid_operand :
    stepAsk (withWords [9, 32768, 32776, 1]) (fun t => (verdict t, t.getReg 0)) =
        some ((.errored, 1, 32776, 0), 0) ∧
      stepAsk (withWords [4, 32768, 40000, 50000]) verdict = some (.errored, 1, 40000, 0) := by
  decide
/-- B1.7, B1.8: an untaken target is checked, and the check comes before the underflow. -/
theorem test_eager_validation :
    stepAsk (withWords [7, 0, 32780]) verdict = some (.errored, 1, 32780, 0) ∧
      stepAsk (withWords [3, 40000]) verdict = some (.errored, 1, 40000, 0) := by decide
/-- B1.9: NOOP at 32767, and the fetch at 32768. -/
theorem test_pc_runs_off :
    stepAsk ((State.reset.loadWord 32767 21).setPc 32767) verdict =
        some (.running, 0, 0, 32768) ∧
      stepAsk (State.reset.setPc 32768) verdict = some (.errored, 5, 32768, 32768) := by decide
/-- B1.10, B1.11: an operand past the end; an unknown opcode comes first. -/
theorem test_operand_fetch_range :
    stepAsk ((State.reset.loadWords 32766 [1, 32768]).setPc 32766) verdict =
        some (.errored, 5, 32768, 32766) ∧
      stepAsk ((State.reset.loadWord 32767 23).setPc 32767) verdict =
        some (.errored, 2, 23, 32767) := by decide
/-- B1.13, with R22: no successor of a terminal state. -/
theorem test_terminal_is_final :
    faultOf (step State.reset.halt) = some .finalHalted ∧
      faultOf (step (State.reset.raise .stackUnderflow 0)) = some .finalErrored := by decide

/-! ### One step of each instruction (95 B1 to B8) -/

/-- B2.1, B1.12. -/
theorem test_halt :
    stepAsk (withWords [0]) verdict = some (.halted, 0, 0, 1) ∧
      stepAsk (State.reset.setPc 32767) verdict = some (.halted, 0, 0, 32768) := by decide
/-- B1.14. -/
theorem test_set_register :
    stepAsk ((withWords [1, 32768, 32771]).setReg 3 1234) (fun t => (t.getReg 0, t.pc)) =
      some (1234, 3) := by decide
/-- B2.3, B2.4: a literal destination is a memory cell, even the SET's own word. -/
theorem test_set_memory :
    stepAsk ((withWords [1, 100, 32770]).setReg 2 7) (fun t => (t.memRead 100, t.getReg 2)) =
        some (7, 7) ∧
      stepAsk (withWords [1, 1, 5]) (fun t => (t.memRead 1, t.pc)) = some (5, 3) := by decide
/-- B2.7. -/
theorem test_push :
    stepAsk ((withWords [2, 32771]).setReg 3 500) (fun t => (t.stack, t.getReg 3, t.pc)) =
      some ([500], 500, 2) := by decide
/-- B2.11. -/
theorem test_push_overflow :
    stepAsk { withWords [2, 4] with stackCapacity := some 1, stack := [3] }
      (fun t => (verdict t, t.stack)) = some ((.errored, 6, 0, 0), [3]) := by decide
/-- B2.8 (9 on top), B2.9. -/
theorem test_pop :
    stepAsk { withWords [3, 32769] with stack := [9, 5] }
        (fun t => (t.getReg 1, t.stack, t.pc)) = some (9, [5], 2) ∧
      stepAsk { withWords [3, 200] with stack := [5] } (fun t => (t.memRead 200, t.stack)) =
        some (5, []) := by decide
/-- A3, B2.10. -/
theorem test_pop_corners :
    stepAsk (withWords [3, 32768]) (fun t => (verdict t, t.getReg 0)) =
        some ((.errored, 3, 0, 0), 0) ∧
      stepAsk { (withWords [3, 32768]).setReg 0 1 with stack := [32768] }
        (fun t => t.getReg 0) = some 0 := by decide
/-- B3.3, B3.2. -/
theorem test_eq :
    stepAsk ((withWords [4, 32768, 32768, 32768]).setReg 0 77) (fun t => (t.getReg 0, t.pc)) =
        some (1, 4) ∧
      stepAsk ((withWords [4, 32768, 5, 6]).setReg 0 9) (fun t => t.getReg 0) = some 0 := by
  decide
/-- B3.7, B3.8: unsigned. -/
theorem test_gt_unsigned :
    stepAsk (withWords [5, 32768, 32767, 0]) (fun t => t.getReg 0) = some 1 ∧
      stepAsk (withWords [5, 32768, 0, 32767]) (fun t => t.getReg 0) = some 0 := by decide
/-- B3.6, B3.9. -/
theorem test_gt_strict :
    stepAsk (withWords [5, 32768, 5, 5]) (fun t => t.getReg 0) = some 0 ∧
      stepAsk (withWords [5, 300, 2, 1]) (fun t => t.memRead 300) = some 1 := by decide
/-- B4.2. -/
theorem test_jmp :
    stepAsk ((withWords [6, 32768]).setReg 0 7) (fun t => t.pc) = some 7 := by decide
/-- B4.4, B4.5. -/
theorem test_jt :
    stepAsk (((State.reset.loadWords 9 [7, 32768, 3]).setPc 9).setReg 0 2) (fun t => t.pc) =
        some 3 ∧
      stepAsk ((State.reset.loadWords 9 [7, 32768, 3]).setPc 9) (fun t => t.pc) = some 12 := by
  decide
/-- B4.7, B4.8. -/
theorem test_jf :
    stepAsk ((State.reset.loadWords 5 [8, 32769, 20]).setPc 5) (fun t => t.pc) = some 20 ∧
      stepAsk (((State.reset.loadWords 5 [8, 32769, 20]).setPc 5).setReg 1 4) (fun t => t.pc) =
        some 8 := by decide
/-- A1's first step, B5.30. -/
theorem test_add :
    stepAsk (withWords [9, 32768, 32769, 4]) (fun t => (t.getReg 0, t.pc)) = some (4, 4) ∧
      stepAsk ((withWords [9, 32768, 32768, 32768]).setReg 0 16384) (fun t => t.getReg 0) =
        some 0 := by decide
/-- B5.2, B5.32. -/
theorem test_add_wraps :
    stepAsk (withWords [9, 32768, 32767, 32767]) (fun t => t.getReg 0) = some 32766 ∧
      stepAsk (withWords [9, 50, 1, 2]) (fun t => (t.memRead 50, t.getReg 0)) = some (3, 0) := by
  decide
/-- B5.7, B5.8, B5.11. -/
theorem test_mult :
    stepAsk (withWords [10, 32768, 200, 200]) (fun t => t.getReg 0) = some 7232 ∧
      stepAsk (withWords [10, 32768, 32767, 32767]) (fun t => t.getReg 0) = some 1 ∧
      stepAsk (withWords [10, 32768, 181, 181]) (fun t => t.getReg 0) = some 32761 := by decide
/-- B5.14, B5.18. -/
theorem test_mod :
    stepAsk (withWords [11, 32768, 3, 10]) (fun t => t.getReg 0) = some 3 ∧
      stepAsk (withWords [11, 32768, 32767, 21845]) (fun t => (t.getReg 0, t.pc)) =
        some (10922, 4) := by decide
/-- B5.33. -/
theorem test_mod_by_zero :
    stepAsk ((withWords [11, 32768, 32769, 32770]).setReg 1 20)
      (fun t => (verdict t, t.getReg 0)) = some ((.errored, 4, 0, 0), 0) := by decide
/-- B5.21, B5.22. -/
theorem test_and :
    stepAsk (withWords [12, 32768, 32767, 12345]) (fun t => t.getReg 0) = some 12345 ∧
      stepAsk (withWords [12, 32768, 3855, 255]) (fun t => t.getReg 0) = some 15 := by decide
/-- B5.23, B5.24. -/
theorem test_or :
    stepAsk (withWords [13, 32768, 21845, 10922]) (fun t => t.getReg 0) = some 32767 ∧
      stepAsk (withWords [13, 32768, 3840, 240]) (fun t => t.getReg 0) = some 4080 := by decide
/-- B5.26, B5.28. -/
theorem test_not :
    stepAsk (withWords [14, 32768, 0]) (fun t => t.getReg 0) = some 32767 ∧
      stepAsk ((withWords [14, 32769, 32768]).setReg 0 21845) (fun t => (t.getReg 1, t.pc)) =
        some (10922, 3) := by decide
/-- B6.2, B6.6: an image word is reduced; RMEM of its own opcode word. -/
theorem test_rmem :
    stepAsk ((withWords [15, 32768, 200]).loadWord 200 40000) (fun t => t.getReg 0) =
        some 7232 ∧
      stepAsk (withWords [15, 32768, 0]) (fun t => (t.getReg 0, t.pc)) = some (15, 3) := by decide
/-- B6.4, B6.5. -/
theorem test_rmem_operands :
    stepAsk (((withWords [15, 32768, 32769]).setReg 1 100).loadWord 100 9)
        (fun t => t.getReg 0) = some 9 ∧
      stepAsk ((withWords [15, 100, 5]).loadWord 5 11) (fun t => t.memRead 100) = some 11 := by
  decide
/-- B6.8. -/
theorem test_wmem :
    stepAsk (((withWords [16, 32768, 32769]).setReg 0 300).setReg 1 4)
      (fun t => (t.memRead 300, t.getReg 0, t.pc)) = some (4, 300, 3) := by decide
/-- B7.2, B7.3. -/
theorem test_call :
    stepAsk (((State.reset.loadWords 10 [17, 32768]).setPc 10).setReg 0 40)
        (fun t => (t.stack, t.pc)) = some ([12], 40) ∧
      stepAsk ((State.reset.loadWords 32766 [17, 0]).setPc 32766) (fun t => (t.stack, t.pc)) =
        some ([32768], 0) := by decide
/-- B7.8. -/
theorem test_call_overflow :
    stepAsk { withWords [17, 5] with stackCapacity := some 0 } verdict =
      some (.errored, 6, 0, 0) := by decide
/-- B7.4, B7.7. -/
theorem test_ret :
    stepAsk { withWords [18] with stack := [32768] } verdict = some (.running, 0, 0, 32768) ∧
      stepAsk { withWords [18] with stack := [9, 5] } (fun t => (t.pc, t.stack)) =
        some (9, [5]) := by decide
/-- A4, B7.6. -/
theorem test_ret_empty : stepAsk (withWords [18]) verdict = some (.halted, 0, 0, 1) := by decide
/-- B8.2, B8.3: the low byte, appended. -/
theorem test_out :
    stepAsk { withWords [19, 321] with outStream := [66] } (fun t => (t.outStream, t.pc)) =
        some ([66, 65], 2) ∧
      stepAsk (withWords [19, 256]) (fun t => t.outStream) = some [0] := by decide
/-- B8.5, B8.6. -/
theorem test_in :
    stepAsk { withWords [20, 32768] with hostInput := [104, 105, 10] }
        (fun t => (t.getReg 0, t.inBuf, t.lineTrace, t.pc)) =
        some (104, [105, 10], [[104, 105, 10]], 2) ∧
      stepAsk { withWords [20, 32769] with inBuf := [105, 10], hostInput := [7, 10] }
        (fun t => (t.getReg 1, t.inBuf, t.lineTrace, t.inStream)) =
        some (105, [10], [], [105]) := by decide
/-- B8.9, B8.11: the wait, and no wait for an invalid operand. -/
theorem test_in_waits :
    faultOf (step { withWords [20, 32768] with hostInput := [104] }) = some .inputWait ∧
      stepAsk (withWords [20, 40000]) verdict = some (.errored, 1, 40000, 0) := by decide
/-- A2's first step. -/
theorem test_noop : stepAsk (withWords [21, 0]) verdict = some (.running, 0, 0, 1) := by decide

/-! ### Witnesses: states and operands that meet the hypotheses of the statements -/

/-- A RUNNING state with NOOP at pc. -/
def noopState : State := withWords [21]

theorem witness_noop_step : step noopState = .next (noopState.advance 1) := by rfl

/-- EveryStepKeepsTheBlockInvariant, EveryHostActionKeepsTheBlockInvariant. -/
theorem witness_invariant : noopState.Inv ∧ step noopState = .next (noopState.advance 1) := by
  refine ⟨?_, witness_noop_step⟩
  constructor <;>
    simp [noopState, withWords, State.loadWords, State.loadWord, State.reset, Memory.write,
      Memory.erase, Memory.insert, Memory.wf, Memory.wfFrom, Config.defaultStackCapacity]

/-- EncodeWritesTheDecodedWords, DecodeAcceptsExactlyTheWellFormedWords. -/
theorem witness_decoded_words :
    decode [1, 32768, 42, 7] = .ok (.set (.reg 0) (.lit 42), [7]) := by rfl

/-- OperandWordsReadAsTheirClass: each class at the ends of its range. -/
theorem witness_operand_classes :
    (32767 : Word).toNat < 32768 ∧ (32768 : Word).toNat = 32768 + (0 : Reg).val ∧
      (32775 : Word).toNat = 32768 + (7 : Reg).val ∧ 32776 ≤ (32776 : Word).toNat := by decide

/-- StepExecutesTheDecodedInstruction. -/
theorem witness_decoded_step :
    noopState.run = .running ∧ decode noopState.fetchWindow = .ok (.noop, [0, 0, 0]) :=
  ⟨rfl, rfl⟩

/-- StepExecutesTheInstructionStoredAtPc: POP at the last two addresses. -/
theorem witness_stored_instruction :
    let s := (State.reset.loadWords 32766 [3, 32769]).setPc 32766
    let i : Instr := .pop (.reg 1)
    s.run = .running ∧ s.pc.toNat + (encode i).length ≤ 32768 ∧
      ∀ (k : Nat) (h : k < (encode i).length), s.mem.read (s.pc.toNat + k) = (encode i)[k] := by
  refine ⟨rfl, by decide, fun k h => ?_⟩
  match k, h with
  | 0, _ => rfl
  | 1, _ => rfl

/-- FetchErrorsAreRaisedInOrder: one state for each clause, at its boundary. -/
theorem witness_fetch_errors :
    let s1 := State.reset.setPc 32768
    let s2 := (State.reset.loadWord 32767 22).setPc 32767
    let s3 := (State.reset.loadWords 32765 [4, 0, 0]).setPc 32765
    let s4 := (State.reset.loadWords 32764 [4, 32775, 32767, 32776]).setPc 32764
    (s1.run = .running ∧ 32768 ≤ s1.pc.toNat) ∧
    (s2.run = .running ∧ s2.pc.toNat < 32768 ∧ 22 ≤ (s2.mem.read s2.pc.toNat).toNat) ∧
    (s3.run = .running ∧ s3.pc.toNat < 32768 ∧
      operandCounts[(s3.mem.read s3.pc.toNat).toNat]? = some 3 ∧ 32768 ≤ s3.pc.toNat + 3) ∧
    (s4.run = .running ∧ operandCounts[(s4.mem.read s4.pc.toNat).toNat]? = some 3 ∧
      s4.pc.toNat + 3 < 32768 ∧
      (∀ j, j < 3 → 1 ≤ j → (s4.mem.read (s4.pc.toNat + j)).toNat < 32776) ∧
      32776 ≤ (s4.mem.read (s4.pc.toNat + 3)).toNat) := by decide

/-- TerminalStatesHaveNoStep, OnlyResetLeavesATerminalState. -/
theorem witness_terminal :
    State.reset.halt.run = .halted ∧ (State.reset.raise .divisionByZero 0).run = .errored ∧
      (Block.mk false true false State.reset.halt).rst = false ∧
      (Block.mk false true false State.reset.halt).core.run ≠ .running ∧
      HostAction.proceed ≠ .assertReset := by decide

/-- The statements on PUSH and CALL: room at one below the bound and without a bound, none at it. -/
theorem witness_stack_bound :
    let room := { State.reset with stackCapacity := some 1 }
    let full := { State.reset with stackCapacity := some 1, stack := [3] }
    room.stackCapacity ≠ some room.stack.length ∧
      State.reset.stackCapacity ≠ some State.reset.stack.length ∧
      full.stackCapacity = some full.stack.length := by decide

/-- The statements on POP and RET: an entry at its greatest value, and the empty stack. -/
theorem witness_stack_entries :
    { State.reset with stack := [32768] }.stack = 32768 :: [] ∧ State.reset.stack = [] := by decide

/-- ModWritesTheRemainderOrDividesByZero: both clauses. -/
theorem witness_mod :
    (State.reset.readOp (.lit 1)).toNat ≠ 0 ∧ (State.reset.readOp (.reg 2)).toNat = 0 := by decide

/-- NotAddAddSubtracts: a minuend that is not the destination, literal and register. -/
theorem witness_subtract :
    Operand.lit 10 ≠ .reg 2 ∧ Operand.reg 0 ≠ .reg 2 := by decide

/-- WmemIsSeenByTheNextFetch, at the last place. -/
theorem witness_wmem_next :
    (State.reset.setPc 32764).run = .running ∧ (State.reset.setPc 32764).pc.toNat + 3 < 32768 := by
  decide

/-- CallThenRetResumesAfterTheCall. -/
theorem witness_call_ret :
    let t := (State.reset.pushEntry 2).setPc 5
    State.reset.stackCapacity ≠ some State.reset.stack.length ∧
      exec (.call (.lit 5)) State.reset = .next t ∧ (t.setReg 3 7).stack = t.stack :=
  ⟨by decide, rfl, rfl⟩

/-- InTakesTheOldestBufferedCode. -/
theorem witness_in_buffered :
    { State.reset with inBuf := [10] }.inBuf = 10 :: ([] : List Code) := by decide

/-- InRequestsOneLineWhenTheBufferIsEmpty: an ordinary line, and the empty line. -/
theorem witness_in_line :
    let s := { State.reset with hostInput := [104, 105, 10, 7] }
    let e := { State.reset with hostInput := [10] }
    (s.inBuf = [] ∧ Config.lineTerminator ∉ ([104, 105] : List Code) ∧
      s.hostInput = [104, 105] ++ Config.lineTerminator :: [7] ∧
      ([104, 105] ++ [Config.lineTerminator] : List Code) = 104 :: [105, 10]) ∧
    (e.inBuf = [] ∧ Config.lineTerminator ∉ ([] : List Code) ∧
      e.hostInput = [] ++ Config.lineTerminator :: [] ∧
      ([] ++ [Config.lineTerminator] : List Code) = 10 :: []) := by decide

/-- InWaitsWithoutALine: a line without its end. -/
theorem witness_in_wait :
    let s := { State.reset with hostInput := [104, 105] }
    s.inBuf = [] ∧ Config.lineTerminator ∉ s.hostInput := by decide

/-- OnlyTheDestinationRegisterChanges, OnlyTheStoreAddressChanges,
OnlyTheStackInstructionsChangeTheStack: an instruction with a next state, a register and an address
that are not its targets, and a word it changes. -/
theorem witness_exec_next :
    exec (.set (.lit 9) (.lit 5)) State.reset =
        .next ((State.reset.store (.lit 9) 5).advance 3) ∧
      (Instr.set (.lit 9) (.lit 5)).dest ≠ some (.reg 3) ∧
      storeAddr (.set (.lit 9) (.lit 5)) State.reset ≠ some 8 ∧
      ((State.reset.store (.lit 9) 5).advance 3).memRead 9 ≠ State.reset.memRead 9 :=
  ⟨rfl, by decide, by decide, by decide⟩

/-- ErrorsArePrecise. -/
theorem witness_error_step :
    step (withWords [22]) = .next ((withWords [22]).raise .unknownOpcode 22) ∧
      ((withWords [22]).raise .unknownOpcode 22).run = .errored := ⟨rfl, rfl⟩

/-- InstructionErrorsHaveTheirOneCause. -/
theorem witness_instruction_error :
    State.reset.safe ∧
      exec (.pop (.lit 0)) State.reset = .next (State.reset.raise .stackUnderflow 0) ∧
      ¬ (State.reset.raise .stackUnderflow 0).safe :=
  ⟨by simp [State.safe, State.reset], rfl, by simp [State.safe, State.raise]⟩

/-- OnlyHaltAndEmptyRetHalt. -/
theorem witness_halting_step :
    step State.reset = .next (State.reset.halt.advance 1) ∧
      (State.reset.halt.advance 1).run = .halted := ⟨rfl, rfl⟩

/-- RunningBlockStepsUnlessInWaits. -/
theorem witness_running : noopState.run = .running := by rfl

/-- OnlyOutExtendsTheOutputStream, InputCodesAreKeptInOrder: a step that has a next state is
`witness_noop_step`. LinesAreRequestedOnlyByInOnAnEmptyBuffer: a step that requests a line and one
that changes the buffer. -/
theorem witness_line_requested :
    stepAsk { withWords [20, 32768] with hostInput := [7, 10] }
      (fun t => decide (t.lineTrace ≠ []) && decide (t.inBuf ≠ [])) = some true := by decide

/-- CanonicalMemoriesThatReadAlikeAreEqual. -/
theorem witness_canonical_memories :
    Memory.wf [(3, 7), (32767, 1)] = true ∧
      ∀ a, Memory.read [(3, 7), (32767, 1)] a = Memory.read [(3, 7), (32767, 1)] a :=
  ⟨by decide, fun _ => rfl⟩

/-- ImageLoadFillsMemoryAndPadsWithZero, BootHoldsTheImageOrRefusesIt: lengths at the boundary. -/
theorem witness_image_lengths :
    (List.replicate 32768 (0 : Word)).length ≤ 32768 ∧
      32768 < (List.replicate 32769 (0 : Word)).length := by
  rw [List.length_replicate, List.length_replicate]
  exact ⟨Nat.le_refl _, Nat.lt_succ_self _⟩

/-- ImageWordsAreLittleEndianBytePairs: even and odd. -/
theorem witness_image_bytes :
    imageOfBytes [9, 0, 1, 128] = some [9, 32769] ∧ imageOfBytes [9, 0, 1] = none := by decide

/-- A block at the IN of test vector B8.5 with an unfinished host line; `started`: whether the IN has. -/
def inBlock (stepEn started : Bool) : Block :=
  { rst := false, stepEn := stepEn, inStarted := started,
    core := { withWords [20, 32768] with hostInput := [104] } }

/-- PortsObeyTheResetLevel: each clause; a step with a next state, and an IN without a line. -/
theorem witness_port_levels :
    (Block.mk true true false State.reset).rst = true ∧
      (inBlock false false).rst = false ∧ (inBlock false false).stepEn = false ∧
      ((inBlock true false).rst = false ∧ (inBlock true false).stepEn = true ∧
        (inBlock true false).inStarted = false ∧
        faultOf (step (inBlock true false).core) = some .inputWait) ∧
      nextOf (step (Block.mk false true false State.reset).core) ≠ none := by decide

/-- ACompletedLineEndsTheWait: codes with and without the end of a line, and another action. -/
theorem witness_waiting_block :
    (inBlock false true).core.waitsForLine = true ∧ (inBlock false true).rst = false ∧
      (inBlock false true).inStarted = true ∧
      Config.lineTerminator ∈ ([105, 10] : List Code) ∧
      Config.lineTerminator ∉ ([105] : List Code) ∧
      HostAction.proceed ≠ .assertReset ∧ (∀ codes, HostAction.proceed ≠ .offer codes) :=
  ⟨by decide, rfl, rfl, by decide, by decide, by decide, by simp⟩

theorem inBlock_inv (stepEn started : Bool) : (inBlock stepEn started).Inv := by
  refine ⟨?_, fun _ => rfl, fun h => absurd h (by simp [inBlock])⟩
  constructor <;>
    simp [inBlock, withWords, State.loadWords, State.loadWord, State.reset, Memory.write,
      Memory.erase, Memory.insert, Memory.wf, Memory.wfFrom, Config.defaultStackCapacity]

/-- EveryHostActionKeepsTheBlockInvariant, and LinesAreRequestedOnlyByInOnAnEmptyBuffer at the ports:
the request rises. -/
theorem witness_request_rises :
    (inBlock true false).Inv ∧ (inBlock true false).outputs.inLineReq = false ∧
      ((inBlock true false).act .proceed).outputs.inLineReq = true :=
  ⟨inBlock_inv true false, by decide, by decide⟩

/-! ### The ports -/

/-- R31, R96, R100: with `step_en` low an IN at pc does not start and asks for nothing. -/
theorem test_port_no_request_unstarted :
    (inBlock false false).act .proceed = inBlock false false ∧
      (inBlock false false).outputs.inLineReq = false := by decide
/-- R96, B8.5: a started IN completes on the host's line with `step_en` low; the request falls. -/
theorem test_port_line_completes_in :
    ((inBlock false true).act (.offer [105, 10])).core.getReg 0 = 104 ∧
      ((inBlock false true).act (.offer [105, 10])).core.inBuf = [105, 10] ∧
      ((inBlock false true).act (.offer [105, 10])).outputs.inLineReq = false := by decide

end Sys2Proof.Tests
end

section
/-!
PROOFS. The statements of 00_scope.md: a decoded instruction is the step's (R58), an IN that requests a
line (R85, R96), the frame of the stack (R18), and precise errors (R87, R93).
-/

namespace Sys2Proof.Machine

/-! ### What an effect does to the stack and its bound -/

/-- No instruction changes `STACK_CAPACITY` (R5). -/
theorem Effect.stackCapacity_eq {i : Instr} {s t : State} (h : Effect i s t) :
    t.stackCapacity = s.stackCapacity := by
  cases h with
  | input a c u _ code =>
    obtain ⟨-, -, -, -, -, -, -, -, hcap, -⟩ := State.nextInput_leaves code
    simp [hcap]
  | _ => simp

/-- The stack is left alone, or one entry is pushed by PUSH or CALL, or popped by POP or RET (R18). -/
theorem Effect.stack_cases {i : Instr} {s t : State} (h : Effect i s t) :
    t.stack = s.stack ∨
      (∃ a v, i = .push a ∧ t.stack = v :: s.stack) ∨
      (∃ a, i = .call a ∧ t.stack = (s.pc + 2) :: s.stack) ∨
      (∃ a v, i = .pop a ∧ s.stack = v :: t.stack) ∨
      (i = .ret ∧ s.stack = t.pc :: t.stack) := by
  cases h with
  | pushed a is _ => exact .inr (.inl ⟨a, _, is, rfl⟩)
  | called a is _ => exact .inr (.inr (.inl ⟨a, is, rfl⟩))
  | popped a v rest is top => exact .inr (.inr (.inr (.inl ⟨a, v, is, by simp [top]⟩)))
  | returned v rest is top => exact .inr (.inr (.inr (.inr ⟨is, top⟩)))
  | input a c u _ code =>
    obtain ⟨-, -, hstack, -⟩ := State.nextInput_leaves code
    exact .inl (by simp [hstack])
  | _ => exact .inl (by simp)

/-! ### How a state becomes ERRORED -/

/-- An effect that ends a safe run raised an error of its own, with information word 0 (R87, R88). -/
theorem Effect.eq_raise_of_not_safe {i : Instr} {s t : State} (h : Effect i s t) (hs : s.safe)
    (ht : ¬ t.safe) : ∃ e, e ≠ .noError ∧ t = s.raise e 0 := by
  cases h with
  | raised e cause =>
    refine ⟨e, ?_, rfl⟩
    rcases cause with ⟨_, _, _, rfl⟩ | ⟨_, _, _, _, _, rfl⟩ | ⟨_, _, _, rfl⟩ | ⟨_, _, _, rfl⟩ <;>
      decide
  | halted _ => exact absurd (by simp [State.safe]) ht
  | input a c u _ code =>
    obtain ⟨-, -, -, -, hrun, -⟩ := State.nextInput_leaves code
    exact absurd (by simpa [State.safe, hrun] using hs) ht
  | _ => exact absurd (by simpa [State.safe] using hs) ht

/-- A step into ERRORED, from the fetch or from the instruction, is the raise of a named error (R87). -/
theorem step_eq_raise_of_errored {s t : State} (h : step s = .next t) (ht : t.run = .errored) :
    ∃ e v, e ≠ .noError ∧ t = s.raise e v := by
  obtain ⟨hrun, ⟨i, -, hexec⟩ | ⟨e, v, hfetch, rfl⟩⟩ := step_next_cases h
  · have hs : s.safe := by simp [State.safe, hrun]
    obtain ⟨e, he, rfl⟩ := (exec_effect hexec).eq_raise_of_not_safe hs (fun hsafe => hsafe ht)
    exact ⟨e, 0, he, rfl⟩
  · exact ⟨e, v, State.fetch_error_ne hfetch, rfl⟩

/-! ### IN -/

/-- IN whose next code is there writes it, zero-extended, to its destination (R85). -/
theorem exec_inp_writesDest {a : Operand} {s u : State} {c : Code} (h : s.nextInput = some (c, u)) :
    ∃ t, exec (.inp a) s = .next t ∧ WritesDest a c.toNat 2 u t := by
  refine ⟨(u.store a (c.setWidth 16)).advance 2, by simp only [exec, execIn, h], ?_⟩
  have hc : (c.setWidth 16).toNat % 32768 = c.toNat := by
    rw [BitVec.toNat_setWidth]
    have := c.isLt
    omega
  simpa only [hc] using u.store_advance_writesDest a (c.setWidth 16) 2

/-! ### The statements -/

/-- Settles O39: the host's codes begin with one line, so `next_input()` requests it and gives its first
code, which IN stores. -/
theorem inRequestsOneLineWhenTheBufferIsEmpty :
    Obligations.InRequestsOneLineWhenTheBufferIsEmpty := by
  intro a s body after c rest hbuf hbody hhost hline
  have htake : takeLine s.hostInput = some (c :: rest, after) := by
    rw [hhost, takeLine_append body after hbody, hline]
  rw [hline]
  exact exec_inp_writesDest (State.nextInput_of_line hbuf htake)

/-- Settles O44, by the effects of the instructions. -/
theorem onlyTheStackInstructionsChangeTheStack :
    Obligations.OnlyTheStackInstructionsChangeTheStack := by
  intro i s t h
  exact ⟨(exec_effect h).stackCapacity_eq, (exec_effect h).stack_cases⟩

/-- Settles O45: such a step is the raise of a named error, which writes run state and error record. -/
theorem errorsArePrecise : Obligations.ErrorsArePrecise := by
  intro s t h ht
  obtain ⟨e, v, he, rfl⟩ := step_eq_raise_of_errored h ht
  exact ⟨he, rfl⟩

/-- Settles O10: the fetch answers the decoded instruction, which `step` executes on the same state. -/
theorem stepExecutesTheDecodedInstruction : Obligations.StepExecutesTheDecodedInstruction := by
  intro s i rest hrun hdecode
  exact step_of_fetch_ok hrun (State.fetch_of_decode hdecode)

end Sys2Proof.Machine
end

section
/-!
PROOFS. The decoder by opcode word, and the words it takes; the errors of the fetch in their order (R60).
-/

namespace Sys2Proof

/-- How the decoder treats an opcode word whose row has that many operands (R48, R49): the format it
hands the operand words to, and the words of the instruction the format makes. -/
inductive DecodesBy (op : Word) (ws : List Word) : Nat → Prop
  | format0 (i : Instr) (eq : decode (op :: ws) = decodeFormat0 i ws)
      (words : encode i = [op]) : DecodesBy op ws 0
  | format1 (mk : Operand → Instr) (eq : decode (op :: ws) = decodeFormat1 mk ws)
      (words : ∀ a, encode (mk a) = [op, a.toWord]) : DecodesBy op ws 1
  | format2 (mk : Operand → Operand → Instr) (eq : decode (op :: ws) = decodeFormat2 mk ws)
      (words : ∀ a b, encode (mk a b) = [op, a.toWord, b.toWord]) : DecodesBy op ws 2
  | format3 (mk : Operand → Operand → Operand → Instr)
      (eq : decode (op :: ws) = decodeFormat3 mk ws)
      (words : ∀ a b c, encode (mk a b c) = [op, a.toWord, b.toWord, c.toWord]) :
      DecodesBy op ws 3

/-- A legal opcode word is one of the 22 of the opcode map (R49, R56). -/
theorem DecodesBy.of_operandCounts {op : Word} {n : Nat} (ws : List Word)
    (h : operandCounts[op.toNat]? = some n) : DecodesBy op ws n := by
  have hlt : op.toNat < 22 := (List.getElem?_eq_some_iff.mp h).1
  obtain ⟨k, hk, rfl⟩ : ∃ k, k < 22 ∧ op = BitVec.ofNat 16 k :=
    ⟨op.toNat, hlt, by simp⟩
  match k, hk, h with
  | 0, _, h | 18, _, h | 21, _, h => cases h; exact .format0 _ rfl rfl
  | 2, _, h | 3, _, h | 6, _, h | 17, _, h | 19, _, h | 20, _, h =>
    cases h; exact .format1 _ rfl (fun _ => rfl)
  | 1, _, h | 7, _, h | 8, _, h | 14, _, h | 15, _, h | 16, _, h =>
    cases h; exact .format2 _ rfl (fun _ _ => rfl)
  | 4, _, h | 5, _, h | 9, _, h | 10, _, h | 11, _, h | 12, _, h | 13, _, h =>
    cases h; exact .format3 _ rfl (fun _ _ _ => rfl)
  | k + 22, hk, _ => omega

/-- The words the decoder takes are the encoding of the instruction it answers. -/
theorem eq_encode_of_decode {ws rest : List Word} {i : Instr} (h : decode ws = .ok (i, rest)) :
    ws = encode i ++ rest := by
  cases ws with
  | nil => cases h
  | cons op ws =>
    cases hn : operandCounts[op.toNat]? with
    | none =>
      have hop : 22 ≤ op.toNat := List.getElem?_eq_none_iff.mp hn
      rw [decode_unknown hop] at h
      cases h
    | some n =>
      cases DecodesBy.of_operandCounts ws hn with
      | format0 j eq words =>
        rw [eq] at h
        cases h
        simp [words]
      | format1 mk eq words =>
        obtain ⟨a, rfl, rfl⟩ := decodeFormat1_ok (eq ▸ h)
        simp [words]
      | format2 mk eq words =>
        obtain ⟨a, b, rfl, rfl⟩ := decodeFormat2_ok (eq ▸ h)
        simp [words]
      | format3 mk eq words =>
        obtain ⟨a, b, c, rfl, rfl⟩ := decodeFormat3_ok (eq ▸ h)
        simp [words]

theorem DecodesBy.count_le {op : Word} {ws : List Word} {n : Nat} (h : DecodesBy op ws n) :
    n ≤ 3 := by
  cases h <;> decide

/-- With too few words after a legal opcode word, the first one that is not there is reported (R60
item 3). -/
theorem DecodesBy.decode_missing {op : Word} {ws : List Word} {n : Nat} (h : DecodesBy op ws n)
    (hlen : ws.length < n) : decode (op :: ws) = .error (.missingOperand (ws.length + 1)) := by
  cases h with
  | format0 => simp at hlen
  | format1 mk eq => exact eq.trans ((decodeFormat1_rejects mk ws).1 hlen)
  | format2 mk eq => exact eq.trans ((decodeFormat2_rejects mk ws).1 hlen)
  | format3 mk eq => exact eq.trans ((decodeFormat3_rejects mk ws).1 hlen)

/-- With all operand words there, the first invalid one is reported (R60 item 4). -/
theorem DecodesBy.decode_invalid {op w : Word} {before after : List Word} {n : Nat}
    (h : DecodesBy op (before ++ w :: after) n) (hk : before.length < n)
    (hlen : n ≤ (before ++ w :: after).length) (hbefore : ∀ v ∈ before, v.toNat < 32776)
    (hw : 32776 ≤ w.toNat) :
    decode (op :: (before ++ w :: after)) = .error (.invalidOperand w) := by
  rw [List.length_append, List.length_cons] at hlen
  cases h with
  | format0 => omega
  | format1 mk eq =>
    obtain rfl : before = [] := List.length_eq_zero_iff.mp (by omega)
    exact eq.trans ((decodeFormat1_rejects mk _).2 w after rfl hw)
  | format2 mk eq =>
    refine eq.trans ?_
    rcases before with _ | ⟨a, _ | ⟨_, _⟩⟩ <;>
      simp only [List.length_nil, List.length_cons] at hk hlen
    · obtain ⟨b, rest, rfl⟩ := List.exists_cons_of_length_pos (l := after) (by omega)
      exact ((decodeFormat2_rejects mk _).2 w b rest rfl).1 hw
    · exact ((decodeFormat2_rejects mk _).2 a w after rfl).2 (hbefore a (by simp)) hw
    · omega
  | format3 mk eq =>
    refine eq.trans ?_
    rcases before with _ | ⟨a, _ | ⟨b, _ | ⟨_, _⟩⟩⟩ <;>
      simp only [List.length_nil, List.length_cons] at hk hlen
    · obtain ⟨b, _ | ⟨c, rest⟩, rfl⟩ := List.exists_cons_of_length_pos (l := after) (by omega)
      · simp at hlen
      · exact ((decodeFormat3_rejects mk _).2 w b c rest rfl).1 hw
    · obtain ⟨c, rest, rfl⟩ := List.exists_cons_of_length_pos (l := after) (by omega)
      exact ((decodeFormat3_rejects mk _).2 a w c rest rfl).2.1 (hbefore a (by simp)) hw
    · exact ((decodeFormat3_rejects mk _).2 a b w after rfl).2.2 (hbefore a (by simp))
        (hbefore b (by simp)) hw
    · omega

theorem length_encode_pos (i : Instr) : 1 ≤ (encode i).length := by
  cases i <;> simp [encode]

end Sys2Proof

namespace Sys2Proof.Machine

/-! ### The fetch -/

theorem State.fetch_of_decode_noWord {s : State} (h : decode s.fetchWindow = .error .noWord) :
    s.fetch = .error (.addressOutOfRange, s.pc) := by
  simp [State.fetch, h]

theorem State.fetch_of_decode_unknownOpcode {s : State} {w : Word}
    (h : decode s.fetchWindow = .error (.unknownOpcode w)) :
    s.fetch = .error (.unknownOpcode, w) := by
  simp [State.fetch, h]

theorem State.fetch_of_decode_missingOperand {s : State} {k : Nat}
    (h : decode s.fetchWindow = .error (.missingOperand k)) :
    s.fetch = .error (.addressOutOfRange, s.pc + BitVec.ofNat 16 k) := by
  simp [State.fetch, h]

theorem State.fetch_of_decode_invalidOperand {s : State} {w : Word}
    (h : decode s.fetchWindow = .error (.invalidOperand w)) :
    s.fetch = .error (.invalidOperand, w) := by
  simp [State.fetch, h]

/-- All words of a fetched instruction lie within the address space (R23, R58). -/
theorem State.fetch_fits {s : State} {i : Instr} (h : s.fetch = .ok i) :
    s.pc.toNat + (encode i).length ≤ 32768 := by
  obtain ⟨rest, hd⟩ := State.decode_of_fetch h
  have hlen := s.fetchWindow_length
  rw [eq_encode_of_decode hd, List.length_append] at hlen
  have := length_encode_pos i
  omega

/-- The words after the opcode word in the fetch window: the memory words after pc. -/
def State.operandWindow (s : State) : List Word := s.fetchWindow.tail

theorem State.operandWindow_length (s : State) :
    s.operandWindow.length = min 4 (32768 - s.pc.toNat) - 1 := by
  rw [State.operandWindow, List.length_tail, State.fetchWindow_length]

theorem State.operandWindow_get {s : State} {k : Nat} (h : k < s.operandWindow.length) :
    s.operandWindow[k] = s.mem.read (s.pc.toNat + (k + 1)) := by
  rw [s.operandWindow_length] at h
  have := s.fetchWindow_get (k + 1) (by omega)
  simpa [State.operandWindow] using (List.getElem?_eq_some_iff.mp this).2

theorem State.fetchWindow_of_out_of_range {s : State} (h : 32768 ≤ s.pc.toNat) :
    s.fetchWindow = [] :=
  List.eq_nil_of_length_eq_zero (by rw [s.fetchWindow_length]; omega)

theorem State.fetchWindow_of_in_range {s : State} (h : s.pc.toNat < 32768) :
    s.fetchWindow = s.mem.read s.pc.toNat :: s.operandWindow := by
  have hget := s.fetchWindow_get 0 (by omega)
  rw [State.operandWindow]
  cases hw : s.fetchWindow with
  | nil => simp [hw] at hget
  | cons op ws => simpa [hw] using hget

/-- The operand words that lie past the end: the first of them is at address 32768 (R60 item 3). -/
theorem State.fetch_of_operand_out_of_range {s : State} {n : Nat} (hpc : s.pc.toNat < 32768)
    (hn : operandCounts[(s.mem.read s.pc.toNat).toNat]? = some n)
    (hend : 32768 ≤ s.pc.toNat + n) : s.fetch = .error (.addressOutOfRange, 32768) := by
  have hby := DecodesBy.of_operandCounts s.operandWindow hn
  have hle := hby.count_le
  have hlen := s.operandWindow_length
  have hd := hby.decode_missing (by omega)
  rw [← State.fetchWindow_of_in_range hpc] at hd
  rw [State.fetch_of_decode_missingOperand hd, hlen]
  congr 2
  apply BitVec.eq_of_toNat_eq
  rw [BitVec.toNat_add, BitVec.toNat_ofNat]
  show _ = 32768
  omega

/-- The first invalid operand word, all being there (R60 item 4). -/
theorem State.fetch_of_invalid_operand {s : State} {n k : Nat}
    (hn : operandCounts[(s.mem.read s.pc.toNat).toNat]? = some n)
    (hend : s.pc.toNat + n < 32768) (hk1 : 1 ≤ k) (hkn : k ≤ n)
    (hbefore : ∀ j, 1 ≤ j → j < k → (s.mem.read (s.pc.toNat + j)).toNat < 32776)
    (hbad : 32776 ≤ (s.mem.read (s.pc.toNat + k)).toNat) :
    s.fetch = .error (.invalidOperand, s.mem.read (s.pc.toNat + k)) := by
  obtain ⟨k, rfl⟩ : ∃ j, k = j + 1 := ⟨k - 1, by omega⟩
  have hby := DecodesBy.of_operandCounts s.operandWindow hn
  have hle := hby.count_le
  have hlen := s.operandWindow_length
  have hk : k < s.operandWindow.length := by omega
  have hsplit : s.operandWindow = s.operandWindow.take k ++
      s.mem.read (s.pc.toNat + (k + 1)) :: s.operandWindow.drop (k + 1) := by
    rw [← State.operandWindow_get hk, List.getElem_cons_drop, List.take_append_drop]
  have hvalid : ∀ v ∈ s.operandWindow.take k, v.toNat < 32776 := by
    intro v hv
    obtain ⟨j, hj, rfl⟩ := List.mem_iff_getElem.mp hv
    rw [List.length_take] at hj
    rw [List.getElem_take, State.operandWindow_get]
    exact hbefore (j + 1) (by omega) (by omega)
  have hd := (hsplit ▸ hby).decode_invalid (by rw [List.length_take]; omega)
    (by rw [← hsplit]; omega) hvalid hbad
  rw [← hsplit, ← State.fetchWindow_of_in_range (by omega)] at hd
  exact State.fetch_of_decode_invalidOperand hd

/-- Settles O12: the decoder's rejections of the fetch window, one for each item of R60. -/
theorem fetchErrorsAreRaisedInOrder : Obligations.FetchErrorsAreRaisedInOrder := by
  intro s hrun
  refine ⟨fun hpc => ?_, fun hpc hop => ?_, fun n hpc hn hend => ?_,
    fun n k hn hend hk1 hkn hbefore hbad => ?_⟩
  · refine step_of_fetch_error hrun (State.fetch_of_decode_noWord ?_)
    rw [State.fetchWindow_of_out_of_range hpc]
    rfl
  · refine step_of_fetch_error hrun (State.fetch_of_decode_unknownOpcode ?_)
    rw [State.fetchWindow_of_in_range hpc, decode_unknown hop]
  · exact step_of_fetch_error hrun (State.fetch_of_operand_out_of_range hpc hn hend)
  · exact step_of_fetch_error hrun
      (State.fetch_of_invalid_operand hn hend hk1 hkn hbefore hbad)

end Sys2Proof.Machine
end

section
/-!
PROOFS. What an effect does to each part of the state (R14, R15, R34, R84, R85), and the statements on
single instructions that follow from it.
-/

namespace Sys2Proof.Machine

/-! ### Registers -/

/-- `next_input()` leaves the registers alone. -/
theorem State.nextInput_getReg {s u : State} {c : Code} (h : s.nextInput = some (c, u)) (r : Reg) :
    u.getReg r = s.getReg r := by
  obtain ⟨-, hregs, -⟩ := State.nextInput_leaves h
  simp [State.getReg, hregs]

/-- `next_input()` leaves memory alone. -/
theorem State.nextInput_memRead {s u : State} {c : Code} (h : s.nextInput = some (c, u))
    (n : Value) : u.memRead n = s.memRead n := by
  obtain ⟨hmem, -⟩ := State.nextInput_leaves h
  simp [State.memRead, hmem]

/-- A register that is not the destination keeps its value (R15). -/
theorem Effect.getReg_eq {i : Instr} {s t : State} (h : Effect i s t) {r : Reg}
    (hr : i.dest ≠ some (.reg r)) : t.getReg r = s.getReg r := by
  have hstore : ∀ (u : State) (a : Operand) (v : Word), i.dest = some a →
      (u.store a v).getReg r = u.getReg r := fun u a v hd =>
    (u.store_frame a v).regs r (fun e => hr (by rw [hd, e]))
  cases h with
  | stored a v n dest => exact hstore s a v dest
  | popped a v rest is => exact hstore _ a v (by rw [is]; rfl)
  | input a c u is code =>
    exact (hstore u a _ (by rw [is]; rfl)).trans (State.nextInput_getReg code r)
  | returned => rfl
  | _ => simp

/-- Settles O42, by the effects of the instructions. -/
theorem onlyTheDestinationRegisterChanges : Obligations.OnlyTheDestinationRegisterChanges :=
  fun _ _ _ h _ hr => (exec_effect h).getReg_eq hr

/-! ### Memory -/

/-- A memory word after a store: as it was, or the stored value mod 32768 at a literal destination. -/
theorem State.memRead_store_cases (s : State) (a : Operand) (v : Word) (n : Value) :
    (s.store a v).memRead n = s.memRead n ∨
      (a = .lit n ∧ ((s.store a v).memRead n).toNat < 32768) := by
  by_cases ha : a = .lit n
  · subst ha
    exact .inr ⟨rfl, by simpa [State.memRead_memWrite_same] using toNat_widen_lt (reduce v)⟩
  · exact .inl ((s.store_frame a v).mem n ha)

/-- An instruction with a literal destination stores there (R53). -/
theorem storeAddr_of_dest {i : Instr} {n : Value} (s : State) (h : i.dest = some (.lit n)) :
    storeAddr i s = some n := by
  cases i <;> cases h <;> rfl

/-- A memory word is as it was, or it is at the store address and below 32768 (R11, R34). -/
theorem Effect.memRead_cases {i : Instr} {s t : State} (h : Effect i s t) (n : Value) :
    t.memRead n = s.memRead n ∨ (storeAddr i s = some n ∧ (t.memRead n).toNat < 32768) := by
  have hstore : ∀ (u : State) (a : Operand) (v : Word), i.dest = some a →
      (u.store a v).memRead n = u.memRead n ∨
        (storeAddr i s = some n ∧ ((u.store a v).memRead n).toNat < 32768) := by
    intro u a v hd
    refine (u.memRead_store_cases a v n).imp_right (fun ⟨ha, hlt⟩ => ⟨?_, hlt⟩)
    exact storeAddr_of_dest s (by rw [hd, ha])
  cases h with
  | stored a v m dest => exact hstore s a v dest
  | popped a v rest is => exact hstore _ a v (by rw [is]; rfl)
  | input a c u is code =>
    exact State.nextInput_memRead code n ▸ hstore u a _ (by rw [is]; rfl)
  | wrote a b is =>
    refine (s.memRead_store_cases (.lit (s.readOp a)) _ n).imp_right (fun ⟨ha, hlt⟩ => ⟨?_, hlt⟩)
    obtain rfl := Operand.lit.inj ha
    rw [is]
    rfl
  | returned => exact .inl rfl
  | _ => exact .inl (by simp)

/-- Settles O43: both clauses read the two cases of a memory word. -/
theorem onlyTheStoreAddressChanges : Obligations.OnlyTheStoreAddressChanges := by
  intro i s t h
  refine ⟨fun n hn => ?_, fun n hn => ?_⟩
  · exact ((exec_effect h).memRead_cases n).resolve_right (fun hc => hn hc.1)
  · exact (((exec_effect h).memRead_cases n).resolve_left hn).2

/-! ### Run state -/

/-- Only HALT and RET on an empty stack make a state HALTED (R21, R90). -/
theorem Effect.eq_halt_of_halted {i : Instr} {s t : State} (h : Effect i s t)
    (hs : s.run = .running) (ht : t.run = .halted) :
    t = s.halt.advance 1 ∧ (i = .halt ∨ (i = .ret ∧ s.stack = [])) := by
  cases h with
  | halted cause => exact ⟨rfl, cause⟩
  | input a c u is code =>
    obtain ⟨-, -, -, -, hrun, -⟩ := State.nextInput_leaves code
    simp [hrun, hs] at ht
  | _ => simp [hs] at ht

/-- Settles O47: the error of a fetch does not halt, and of the effects one does. -/
theorem onlyHaltAndEmptyRetHalt : Obligations.OnlyHaltAndEmptyRetHalt := by
  intro s t h ht
  obtain ⟨hrun, ⟨i, hfetch, hexec⟩ | ⟨e, v, -, rfl⟩⟩ := step_next_cases h
  · obtain ⟨rfl, rfl | ⟨rfl, hempty⟩⟩ := (exec_effect hexec).eq_halt_of_halted hrun ht
    · exact ⟨rfl, .inl hfetch⟩
    · exact ⟨rfl, .inr ⟨hfetch, hempty⟩⟩
  · cases ht

/-- Settles O13: `step` looks at the run state first. -/
theorem terminalStatesHaveNoStep : Obligations.TerminalStatesHaveNoStep :=
  fun s => ⟨fun h => by simp [step, h], fun h => by simp [step, h]⟩

/-- Settles O14: the state after HALT is HALTED, and so without a step. -/
theorem haltStopsTheMachine : Obligations.HaltStopsTheMachine :=
  fun s => ⟨rfl, s.halt.advance 1, rfl, rfl, (terminalStatesHaveNoStep _).1 rfl⟩

/-! ### Streams -/

/-- The output stream grows by OUT only (R84). -/
theorem Effect.outStream_cases {i : Instr} {s t : State} (h : Effect i s t) :
    t.outStream = s.outStream ∨
      ∃ a, i = .out a ∧ t.outStream = s.outStream ++ [(s.readOp a).setWidth 8] := by
  cases h with
  | emitted a is => exact .inr ⟨a, is, rfl⟩
  | input a c u is code =>
    obtain ⟨-, -, -, -, -, -, -, hout, -⟩ := State.nextInput_leaves code
    exact .inl (by simp [hout])
  | _ => exact .inl (by simp)

/-- Settles O49: the code OUT appends is the low byte of the read value. -/
theorem onlyOutExtendsTheOutputStream : Obligations.OnlyOutExtendsTheOutputStream := by
  intro s t h
  obtain ⟨-, ⟨i, hfetch, hexec⟩ | ⟨e, v, -, rfl⟩⟩ := step_next_cases h
  · refine (exec_effect hexec).outStream_cases.imp_right ?_
    rintro ⟨a, rfl, hout⟩
    exact ⟨a, hfetch, _, BitVec.toNat_setWidth .., hout⟩
  · exact .inl rfl

/-- No effect loses, doubles or reorders an input code (R85). -/
theorem Effect.inputCodes_eq {i : Instr} {s t : State} (h : Effect i s t) :
    t.inStream ++ t.inBuf ++ t.hostInput = s.inStream ++ s.inBuf ++ s.hostInput := by
  cases h with
  | input a c u is code =>
    obtain ⟨-, -, -, -, -, -, -, -, -, hcodes⟩ := State.nextInput_leaves code
    simpa using hcodes
  | _ => simp

/-- Settles O50, by the effects of the instructions; the error of a fetch touches no code. -/
theorem inputCodesAreKeptInOrder : Obligations.InputCodesAreKeptInOrder := by
  intro s t h
  obtain ⟨-, ⟨i, -, hexec⟩ | ⟨e, v, -, rfl⟩⟩ := step_next_cases h
  · exact (exec_effect hexec).inputCodes_eq
  · rfl

/-! ### PUSH, POP, RMEM, CALL, RET, IN -/

theorem exec_push_of_room {a : Operand} {s : State}
    (h : s.stackCapacity ≠ some s.stack.length) :
    exec (.push a) s = .next ((s.pushEntry (widen (s.readOp a))).advance 2) := by
  simp only [exec, execPush, State.push_of_room _ h]

theorem exec_push_of_full {a : Operand} {s : State} (h : s.stackCapacity = some s.stack.length) :
    exec (.push a) s = .next (s.raise .stackOverflow 0) := by
  simp only [exec, execPush, State.push_of_full _ h]

theorem exec_call_of_room {a : Operand} {s : State}
    (h : s.stackCapacity ≠ some s.stack.length) :
    exec (.call a) s = .next ((s.pushEntry (s.pc + 2)).setPc (widen (s.readOp a))) := by
  simp only [exec, execCall, State.push_of_room _ h]

theorem exec_call_of_full {a : Operand} {s : State} (h : s.stackCapacity = some s.stack.length) :
    exec (.call a) s = .next (s.raise .stackOverflow 0) := by
  simp only [exec, execCall, State.push_of_full _ h]

theorem exec_pop_of_cons {a : Operand} {s : State} {v : Word} {rest : List Word}
    (h : s.stack = v :: rest) :
    exec (.pop a) s = .next ((State.store { s with stack := rest } a v).advance 2) := by
  simp only [exec, execPop, State.pop_of_cons h]

theorem exec_pop_of_nil {a : Operand} {s : State} (h : s.stack = []) :
    exec (.pop a) s = .next (s.raise .stackUnderflow 0) := by
  simp only [exec, execPop, State.pop_of_empty h]

theorem exec_ret_of_cons {s : State} {v : Word} {rest : List Word} (h : s.stack = v :: rest) :
    exec .ret s = .next (State.setPc { s with stack := rest } v) := by
  simp only [exec, execRet, State.pop_of_cons h]

theorem exec_ret_of_nil {s : State} (h : s.stack = []) :
    exec .ret s = .next (s.halt.advance 1) := by
  simp only [exec, execRet, State.pop_of_empty h]

/-- Settles O16: `push` answers the pushed state exactly where there is room. -/
theorem pushPutsTheReadValueOnTop : Obligations.PushPutsTheReadValueOnTop :=
  fun a s => ⟨rfl,
    fun hroom => ⟨_, widen (s.readOp a), exec_push_of_room hroom, toNat_widen _, rfl⟩,
    exec_push_of_full⟩

/-- Settles O34: `push` answers the pushed state exactly where there is room. -/
theorem callPushesTheReturnAddress : Obligations.CallPushesTheReturnAddress :=
  fun _ _ => ⟨rfl, fun hroom => ⟨_, exec_call_of_room hroom, toNat_widen _, rfl⟩,
    exec_call_of_full⟩

/-- Settles O17: the popped entry goes to the destination as every store does. -/
theorem popWritesTheTopEntry : Obligations.PopWritesTheTopEntry :=
  fun a _ v _ htop => ⟨rfl, _, exec_pop_of_cons htop, State.store_advance_writesDest _ a v 2⟩

/-- Settles O31: the word read goes to the destination as every store does. -/
theorem rmemWritesTheMemoryWordReduced : Obligations.RmemWritesTheMemoryWordReduced :=
  fun a _ _ => ⟨rfl, _, rfl, State.store_advance_writesDest _ a _ 3⟩

/-- Settles O38: with codes in the buffer `next_input()` gives the oldest one. -/
theorem inTakesTheOldestBufferedCode : Obligations.InTakesTheOldestBufferedCode :=
  fun _ _ _ _ hbuf => ⟨rfl, exec_inp_writesDest (State.nextInput_of_cons hbuf)⟩

end Sys2Proof.Machine
end

section
/-!
PROOFS. The invariant of the state and of the block: at reset, over every effect and step, and over every
host action (R14, R16, R20, R24, R25, R26, R30, R85).
-/

namespace Sys2Proof.Machine

/-! ### The input buffer -/

/-- A line taken from the host is a line (R96). -/
theorem lineTail_of_takeLine {codes line after : List Code}
    (h : takeLine codes = some (line, after)) : LineTail line := (takeLine_eq_some h).2

/-- What is left of a line after its first code: nothing, or the rest of the line (R25). -/
theorem LineTail.tail {c : Code} {rest : List Code} (h : LineTail (c :: rest)) :
    rest = [] ∨ LineTail rest := by
  obtain ⟨body, hcons, hbody⟩ := h
  cases body with
  | nil => exact .inl (List.cons.inj hcons).2
  | cons d body =>
    exact .inr ⟨body, (List.cons.inj hcons).2, fun hmem => hbody (List.mem_cons_of_mem d hmem)⟩

/-- What `next_input()` does to buffer, input stream and line trace: the code is consumed from the
buffer, or it is the first of a line requested with the buffer empty (R25, R26, R85). -/
theorem State.nextInput_lines {s u : State} {c : Code} (h : s.nextInput = some (c, u)) :
    u.inStream = s.inStream ++ [c] ∧
      ((s.inBuf = c :: u.inBuf ∧ u.lineTrace = s.lineTrace) ∨
        (s.inBuf = [] ∧ LineTail (c :: u.inBuf) ∧
          u.lineTrace = s.lineTrace ++ [c :: u.inBuf])) := by
  obtain ⟨c', rest, hb, hn⟩ | ⟨c', rest, after, hb, hl, hn⟩ | ⟨-, -, hn⟩ := s.nextInput_cases <;>
    cases hn.symm.trans h
  · exact ⟨rfl, .inl ⟨hb, rfl⟩⟩
  · exact ⟨rfl, .inr ⟨hb, lineTail_of_takeLine hl, rfl⟩⟩

/-! ### The clauses of the invariant over the effects -/

theorem toNat_add_ofNat_le {w : Word} {n : Nat} (h : w.toNat + n ≤ 32768) :
    (w + BitVec.ofNat 16 n).toNat ≤ 32768 := by
  rw [BitVec.toNat_add, BitVec.toNat_ofNat]
  omega

/-- Every write is at a 15-bit address, so memory stays canonical (R34). -/
theorem Effect.mem_wf {i : Instr} {s t : State} (h : Effect i s t) (hm : s.mem.wf = true) :
    t.mem.wf = true := by
  cases h with
  | stored a v | popped a v => exact State.store_mem_wf a v hm
  | wrote => exact State.memWrite_wf _ _ hm
  | input a c u is code =>
    obtain ⟨hmem, -⟩ := State.nextInput_leaves code
    exact State.store_mem_wf a _ (hmem ▸ hm)
  | _ => exact hm

/-- The pc moves past words that were fetched, to a value, or to a stack entry (R20, R82, R83). -/
theorem Effect.pc_le {i : Instr} {s t : State} (h : Effect i s t)
    (hfits : s.pc.toNat + (encode i).length ≤ 32768) (hstack : ∀ v ∈ s.stack, v.toNat ≤ 32768) :
    t.pc.toNat ≤ 32768 := by
  cases h with
  | raised => rw [State.raise_pc]; omega
  | halted cause => obtain rfl | ⟨rfl, -⟩ := cause <;> exact toNat_add_ofNat_le hfits
  | moved n len => exact toNat_add_ofNat_le (len ▸ hfits)
  | jumped v | called => exact (toNat_widen_lt _).le
  | stored a v n dest len =>
    rw [State.advance_pc, State.store_pc, len]
    exact toNat_add_ofNat_le hfits
  | popped a v rest is =>
    subst is
    rw [State.advance_pc, State.store_pc]
    exact toNat_add_ofNat_le hfits
  | wrote a b is | pushed a is | emitted a is => subst is; exact toNat_add_ofNat_le hfits
  | returned v rest is top => exact hstack v (by simp [top])
  | input a c u is code =>
    obtain ⟨-, -, -, hpc, -⟩ := State.nextInput_leaves code
    subst is
    rw [State.advance_pc, State.store_pc, hpc]
    exact toNat_add_ofNat_le hfits

/-- PUSH pushes a value and CALL the address after it (R14, R82). -/
theorem Effect.entries_le {i : Instr} {s t : State} (h : Effect i s t)
    (hfits : s.pc.toNat + (encode i).length ≤ 32768) (hstack : ∀ v ∈ s.stack, v.toNat ≤ 32768) :
    ∀ v ∈ t.stack, v.toNat ≤ 32768 := by
  cases h with
  | pushed a =>
    exact List.forall_mem_cons.mpr ⟨(toNat_widen_lt (s.readOp a)).le, hstack⟩
  | called a is =>
    subst is
    exact List.forall_mem_cons.mpr ⟨toNat_add_ofNat_le hfits, hstack⟩
  | popped a v rest is top | returned v rest is top =>
    rw [top, List.forall_mem_cons] at hstack
    simpa using hstack.2
  | input a c u is code =>
    obtain ⟨-, -, hst, -⟩ := State.nextInput_leaves code
    simpa [hst] using hstack
  | _ => simpa using hstack

/-- A push needs room (R16, R17). -/
theorem Effect.depth_le {i : Instr} {s t : State} (h : Effect i s t) {k : Nat}
    (hk : s.stackCapacity = some k) (hdepth : s.stack.length ≤ k) : t.stack.length ≤ k := by
  cases h with
  | pushed a is room | called a is room =>
    have hne : k ≠ s.stack.length := fun e => room (by rw [hk, e])
    simp only [State.advance_stack, State.setPc_stack, State.pushEntry_stack, List.length_cons]
    omega
  | popped a v rest is top | returned v rest is top =>
    rw [top, List.length_cons] at hdepth
    simp only [State.advance_stack, State.setPc_stack, State.store_stack]
    omega
  | input a c u is code =>
    obtain ⟨-, -, hst, -⟩ := State.nextInput_leaves code
    simpa [hst] using hdepth
  | _ => simpa using hdepth

/-- The buffer holds at most one line, after every effect (R25). -/
theorem Effect.inBuf_line {i : Instr} {s t : State} (h : Effect i s t)
    (hb : s.inBuf = [] ∨ LineTail s.inBuf) : t.inBuf = [] ∨ LineTail t.inBuf := by
  cases h with
  | input a c u is code =>
    rw [State.advance_inBuf, State.store_inBuf]
    obtain ⟨-, ⟨hcons, -⟩ | ⟨-, hline, -⟩⟩ := State.nextInput_lines code
    · rw [hcons] at hb
      exact (hb.resolve_left (List.cons_ne_nil _ _)).tail
    · exact hline.tail
  | _ => simpa using hb

/-- Consumed and buffered codes stay the requested lines in order (R26, R85). -/
theorem Effect.consumed_eq {i : Instr} {s t : State} (h : Effect i s t)
    (hc : s.inStream ++ s.inBuf = s.lineTrace.flatten) :
    t.inStream ++ t.inBuf = t.lineTrace.flatten := by
  cases h with
  | input a c u is code =>
    simp only [State.advance_inStream, State.advance_inBuf, State.advance_lineTrace,
      State.store_inStream, State.store_inBuf, State.store_lineTrace]
    obtain ⟨hstream, ⟨hcons, htrace⟩ | ⟨hempty, -, htrace⟩⟩ := State.nextInput_lines code
    · rw [htrace, ← hc, hstream, hcons]
      simp
    · rw [htrace, List.flatten_append, ← hc, hstream, hempty]
      simp
  | _ => simpa using hc

/-! ### The invariant over a step -/

theorem State.Inv.raise {s : State} (hi : s.Inv) {e : ErrorClass} (he : e ≠ .noError) (v : Word) :
    (s.raise e v).Inv :=
  { hi with clear := fun h => absurd rfl h, named := fun _ => he }

/-- An effect of a RUNNING state either raised a named error or left the error record alone. -/
theorem Effect.raised_or_record_eq {i : Instr} {s t : State} (h : Effect i s t) (hs : s.safe) :
    (∃ e, e ≠ .noError ∧ t = s.raise e 0) ∨
      (t.safe ∧ t.errCode = s.errCode ∧ t.errValue = s.errValue) := by
  by_cases ht : t.safe
  · refine .inr ⟨ht, ?_⟩
    cases h with
    | raised => exact absurd rfl ht
    | input a c u is code =>
      obtain ⟨-, -, -, -, -, hcode, hvalue, -⟩ := State.nextInput_leaves code
      simp [hcode, hvalue]
    | _ => simp
  · exact .inl (h.eq_raise_of_not_safe hs ht)

/-- Every effect of an instruction whose words lie in memory keeps the invariant. -/
theorem Effect.inv {i : Instr} {s t : State} (h : Effect i s t) (hs : s.safe) (hi : s.Inv)
    (hfits : s.pc.toNat + (encode i).length ≤ 32768) : t.Inv := by
  obtain ⟨e, he, rfl⟩ | ⟨ht, hcode, hvalue⟩ := h.raised_or_record_eq hs
  · exact hi.raise he 0
  · exact {
      memory := h.mem_wf hi.memory
      pcBound := h.pc_le hfits hi.entries
      entries := h.entries_le hfits hi.entries
      depth := fun k hk => by
        rw [h.stackCapacity_eq] at hk
        exact h.depth_le hk (hi.depth k hk)
      clear := fun _ => by rw [hcode, hvalue]; exact hi.clear hs
      named := fun herr => absurd herr ht
      buffer := h.inBuf_line hi.buffer
      consumed := h.consumed_eq hi.consumed }

/-- Settles O3: an instruction's effect keeps the invariant, for its words lie in memory; and so does
the error of a fetch, which is named. -/
theorem everyStepKeepsTheBlockInvariant : Obligations.EveryStepKeepsTheBlockInvariant := by
  intro s t hi h
  obtain ⟨hrun, ⟨i, hfetch, hexec⟩ | ⟨e, v, hfetch, rfl⟩⟩ := step_next_cases h
  · exact (exec_effect hexec).inv (by simp [State.safe, hrun]) hi (State.fetch_fits hfetch)
  · exact hi.raise (State.fetch_error_ne hfetch) v

/-! ### The invariant over the host actions -/

/-- Settles O2: at reset memory, stack, buffer and traces are empty. -/
theorem resetMeetsTheBlockInvariant : Obligations.ResetMeetsTheBlockInvariant := by
  constructor <;> simp [State.reset, Memory.wf, Memory.wfFrom]

theorem State.Inv.afterReset (s : State) : s.afterReset.Inv :=
  { resetMeetsTheBlockInvariant with depth := fun k _ => Nat.zero_le k }

theorem State.Inv.loadWord {s : State} (hi : s.Inv) {a : Nat} (ha : a < 32768) (w : Word) :
    (s.loadWord a w).Inv :=
  { hi with memory := State.loadWord_wf w ha hi.memory }

/-- The codes the host gets to offer are no part of the invariant. -/
theorem State.Inv.offer {s : State} (hi : s.Inv) (codes : List Code) :
    { s with hostInput := codes }.Inv :=
  { hi with }

theorem Block.start_core_inv {b : Block} (hi : b.core.Inv) : b.start.core.Inv := by
  obtain ⟨t, ht, heq⟩ | ⟨-, heq⟩ | heq := b.start_cases <;> rw [heq]
  · exact everyStepKeepsTheBlockInvariant _ _ hi ht
  · exact hi
  · exact hi

/-- A resumed IN completes, or nothing happens. -/
theorem Block.resume_cases (b : Block) :
    (∃ t, step b.core = .next t ∧ b.resume = { b with inStarted := false, core := t }) ∨
      ((∀ t, step b.core ≠ .next t) ∧ b.resume = b) := by
  cases h : step b.core with
  | next t => exact .inl ⟨t, rfl, Block.resume_of_next h⟩
  | fault f => exact .inr ⟨by simp, by simp [Block.resume, h]⟩
  | refused r => exact .inr ⟨by simp, by simp [Block.resume, h]⟩

theorem Block.resume_core_inv {b : Block} (hi : b.core.Inv) : b.resume.core.Inv := by
  obtain ⟨t, ht, heq⟩ | ⟨-, heq⟩ := b.resume_cases <;> rw [heq]
  · exact everyStepKeepsTheBlockInvariant _ _ hi ht
  · exact hi

/-- The block with more codes for the host to offer. -/
def Block.withCodes (b : Block) (codes : List Code) : Block :=
  { b with core := { b.core with hostInput := b.core.hostInput ++ codes } }

theorem Block.act_offer_of_inWait {b : Block} (h : b.inWait = true) (codes : List Code) :
    b.act (.offer codes) = (b.withCodes codes).resume := by
  simp [Block.act, h, Block.withCodes]

theorem Block.act_offer_of_not_inWait {b : Block} (h : b.inWait = false) (codes : List Code) :
    b.act (.offer codes) = b.withCodes codes := by
  simp [Block.act, h, Block.withCodes]

theorem Block.act_load_of_rst {b : Block} (h : b.rst = true) (addr : Value) (data : Word) :
    b.act (.load addr data) = { b with core := b.core.loadWord addr.toNat data } := by
  simp [Block.act, h]

theorem Block.act_load_of_not_rst {b : Block} (h : b.rst = false) (addr : Value) (data : Word) :
    b.act (.load addr data) = b := by
  simp [Block.act, h]

/-- Every host action keeps the invariant of the state. -/
theorem Block.act_core_inv {b : Block} (hi : b.core.Inv) (x : HostAction) : (b.act x).core.Inv := by
  cases x with
  | assertReset => exact State.Inv.afterReset _
  | releaseReset | setStepEn => exact hi
  | load addr data =>
    cases hr : b.rst with
    | true => rw [Block.act_load_of_rst hr]; exact hi.loadWord addr.isLt data
    | false => rw [Block.act_load_of_not_rst hr]; exact hi
  | proceed =>
    obtain ⟨-, -, -, heq⟩ | heq := b.act_proceed_cases <;> rw [heq]
    · exact Block.start_core_inv hi
    · exact hi
  | offer codes =>
    have hcodes : (b.withCodes codes).core.Inv := hi.offer _
    cases hw : b.inWait with
    | true => rw [Block.act_offer_of_inWait hw]; exact Block.resume_core_inv hcodes
    | false => rw [Block.act_offer_of_not_inWait hw]; exact hcodes

/-- A RUNNING state steps, or its IN waits for a line (R99). -/
theorem State.step_next_or_waits {s : State} (h : s.run = .running) :
    (∃ t, step s = .next t) ∨ s.waitsForLine = true := by
  cases hf : s.fetch with
  | error p => exact .inl ⟨_, step_of_fetch_error (e := p.1) (v := p.2) h hf⟩
  | ok i =>
    rw [State.waitsForLine_iff, step_of_fetch_ok h hf]
    exact (exec_next_or_wait i s).imp_right And.left

/-- Under the invariant an IN that has started waits (R100: not in reset). -/
theorem Block.Inv.not_started_of_not_inWait {b : Block} (hi : b.Inv) (hw : b.inWait = false) :
    b.inStarted = false := by
  cases hr : b.rst with
  | true => exact hi.inReset hr
  | false => simpa [Block.inWait, hr] using hw

/-- With the state's invariant kept, a block with nothing started meets its invariant. -/
theorem Block.Inv.of_not_started {b : Block} (hcore : b.core.Inv) (h : b.inStarted = false) :
    b.Inv :=
  ⟨hcore, fun hs => absurd hs (by simp [h]), fun _ => h⟩

/-- Every host action keeps the invariant of the block. -/
theorem Block.act_inv {b : Block} (hi : b.Inv) (x : HostAction) : (b.act x).Inv := by
  have hcore := Block.act_core_inv hi.core x
  cases x with
  | assertReset => exact .of_not_started hcore rfl
  | releaseReset => exact ⟨hi.core, hi.started, nofun⟩
  | setStepEn level => exact ⟨hi.core, hi.started, hi.inReset⟩
  | load addr data =>
    cases hr : b.rst with
    | true =>
      rw [Block.act_load_of_rst hr] at hcore ⊢
      exact .of_not_started hcore (hi.inReset hr)
    | false => rwa [Block.act_load_of_not_rst hr]
  | proceed =>
    obtain ⟨hr, -, hns, heq⟩ | heq := b.act_proceed_cases
    · rw [heq] at hcore ⊢
      obtain ⟨t, -, hstart⟩ | ⟨hwait, hstart⟩ | hstart := b.start_cases <;> rw [hstart] at hcore ⊢
      · exact .of_not_started hcore hns
      · exact ⟨hi.core, fun _ => hwait, fun h => absurd h (by simp [hr])⟩
      · exact hi
    · rwa [heq]
  | offer codes =>
    cases hw : b.inWait with
    | false =>
      rw [Block.act_offer_of_not_inWait hw] at hcore ⊢
      exact .of_not_started hcore (hi.not_started_of_not_inWait hw)
    | true =>
      obtain ⟨hr, hs⟩ : b.rst = false ∧ b.inStarted = true := by simpa [Block.inWait] using hw
      obtain ⟨hrun, -⟩ := (State.waitsForLine_iff_in _).mp (hi.started hs)
      rw [Block.act_offer_of_inWait hw] at hcore ⊢
      obtain ⟨t, -, heq⟩ | ⟨hnone, heq⟩ := (b.withCodes codes).resume_cases <;>
        rw [heq] at hcore ⊢
      · exact .of_not_started hcore rfl
      · have hwait := (State.step_next_or_waits (s := (b.withCodes codes).core) hrun).resolve_left
          (fun ⟨t, ht⟩ => hnone t ht)
        exact ⟨hcore, fun _ => hwait, fun h => absurd h (by simp [Block.withCodes, hr])⟩

/-- Settles O4, action by action. -/
theorem everyHostActionKeepsTheBlockInvariant :
    Obligations.EveryHostActionKeepsTheBlockInvariant :=
  fun _ x => ⟨fun hi => Block.act_core_inv hi x, fun hi => Block.act_inv hi x⟩

end Sys2Proof.Machine
end

section
/-!
PROOFS. Reset, the image load, the levels of the ports, terminal states at the ports, and when a line is
requested (R22, R29, R31, R42, R96, R100, R101).
-/

namespace Sys2Proof.Machine

/-! ### Reset -/

/-- Every register is 0 at reset (R29). -/
theorem State.getReg_reset (r : Reg) : State.reset.getReg r = 0 := by
  simp [State.getReg, State.reset]

theorem State.getReg_afterReset (s : State) (r : Reg) : s.afterReset.getReg r = 0 :=
  State.getReg_reset r

/-- Settles O1, field by field. -/
theorem resetLeavesTheTableOfR29 : Obligations.ResetLeavesTheTableOfR29 :=
  ⟨State.getReg_reset, fun _ => rfl, rfl, rfl, rfl, rfl, rfl, rfl, rfl, rfl⟩

/-- Settles O54: asserting reset leaves `afterReset`, whatever the block was. -/
theorem resetFromAnyStateGivesTheTableOfR29 : Obligations.ResetFromAnyStateGivesTheTableOfR29 :=
  fun b => ⟨rfl, rfl, rfl, rfl, rfl, State.getReg_afterReset b.core, fun _ => rfl,
    rfl, rfl, rfl, rfl, rfl, rfl, rfl, rfl⟩

/-! ### The image -/

/-- An image loaded into empty memory: its words, and 0 past its end (R42). -/
theorem State.memRead_loadWords_of_empty {s : State} (hmem : s.mem = []) {image : List Word}
    (hlen : image.length ≤ 32768) (a : Value) :
    (s.loadWords 0 image).memRead a = image[a.toNat]?.getD 0 := by
  rw [State.memRead, s.loadWords_read 0 image (by omega), hmem]
  by_cases ha : a.toNat < image.length
  · rw [if_pos ⟨Nat.zero_le _, by omega⟩, Nat.sub_zero]
  · rw [if_neg (by omega), List.getElem?_eq_none (by omega)]
    rfl

/-- Loading changes memory only, here memory that was empty. -/
theorem State.loadWords_rest_of_empty {s : State} (hmem : s.mem = []) (image : List Word) :
    { s.loadWords 0 image with mem := [] } = s :=
  hmem ▸ s.loadWords_rest 0 image

/-- The load port at rising addresses in reset writes as `loadWords` does (R101). -/
theorem Block.foldl_load {b : Block} (hr : b.rst = true) (k : Nat) (image : List Word)
    (hk : k + image.length ≤ 32768) :
    (image.zipIdx k).foldl (fun d p => d.act (.load (BitVec.ofNat 15 p.2) p.1)) b =
      { b with core := b.core.loadWords k image } := by
  induction image generalizing b k with
  | nil => rfl
  | cons w image ih =>
    rw [List.length_cons] at hk
    have haddr : (BitVec.ofNat 15 k).toNat = k := by
      rw [BitVec.toNat_ofNat]
      omega
    have hlt : k < Config.memWords := show k < 32768 by omega
    rw [List.zipIdx_cons, List.foldl_cons, Block.act_load_of_rst hr, haddr, State.loadWords,
      if_pos hlt]
    exact ih (b := { b with core := b.core.loadWord k w }) hr (k + 1) (by omega)

/-- Settles O55: the load port fills the memory that reset emptied. -/
theorem imageLoadFillsMemoryAndPadsWithZero : Obligations.ImageLoadFillsMemoryAndPadsWithZero := by
  intro b image hlen
  refine ⟨_, rfl, rfl, fun a => ?_, ?_⟩ <;>
    rw [Block.foldl_load rfl 0 image (by omega)]
  · exact State.memRead_loadWords_of_empty rfl hlen a
  · exact State.loadWords_rest_of_empty rfl image

/-- Settles O57: `boot` loads the image into empty memory, or refuses it by its length. -/
theorem bootHoldsTheImageOrRefusesIt : Obligations.BootHoldsTheImageOrRefusesIt := by
  refine fun capacity input image => ⟨fun hlen => ?_, fun hlen => if_neg (Nat.not_le.mpr hlen)⟩
  exact ⟨_, if_pos hlen, State.memRead_loadWords_of_empty rfl hlen,
    State.loadWords_rest_of_empty rfl image⟩

/-! ### The levels of the ports -/

theorem Block.act_proceed_of_rst {b : Block} (h : b.rst = true) : b.act .proceed = b := by
  simp [Block.act, h]

theorem Block.act_proceed_of_stepEn_low {b : Block} (h : b.stepEn = false) :
    b.act .proceed = b := by
  simp [Block.act, h]

theorem Block.act_proceed_eq_start {b : Block} (hr : b.rst = false) (he : b.stepEn = true)
    (hs : b.inStarted = false) : b.act .proceed = b.start := by
  simp [Block.act, hr, he, hs]

theorem Block.start_of_next {b : Block} {t : State} (h : step b.core = .next t) :
    b.start = { b with core := t } := by
  simp [Block.start, h]

theorem Block.start_of_wait {b : Block} (h : step b.core = .fault .inputWait) :
    b.start = { b with inStarted := true } := by
  simp [Block.start, h]

/-- The request stands exactly while a started IN waits outside reset (R31, R96). -/
theorem Block.inLineReq_iff (b : Block) :
    b.outputs.inLineReq = true ↔ b.rst = false ∧ b.inStarted = true := by
  simp [Block.outputs, Block.inWait]

theorem Block.inLineReq_low_iff (b : Block) :
    b.outputs.inLineReq = false ↔ (b.rst = false → b.inStarted = false) := by
  rw [← Bool.not_eq_true, b.inLineReq_iff]
  simp

/-- Settles O58, level by level. -/
theorem portsObeyTheResetLevel : Obligations.PortsObeyTheResetLevel := by
  refine fun b => ⟨fun hr => ?_, fun hr => Block.act_load_of_not_rst hr,
    Block.act_proceed_of_stepEn_low, fun _ => rfl, fun hr he hs => ?_⟩
  · exact ⟨Block.act_proceed_of_rst hr, b.inLineReq_low_iff.mpr (by simp [hr])⟩
  · rw [Block.act_proceed_eq_start hr he hs]
    refine ⟨fun t ht => Block.start_of_next ht, fun hw => ?_⟩
    have hstart := Block.start_of_wait hw
    exact ⟨hstart, b.inLineReq_low_iff.mpr (fun _ => hs),
      (Block.inLineReq_iff _).mpr (by simp [hstart, hr])⟩

/-! ### Terminal states -/

theorem Block.start_of_terminal {b : Block} (h : b.core.run ≠ .running) : b.start = b := by
  obtain ⟨t, ht, -⟩ | ⟨hw, -⟩ | heq := b.start_cases
  · exact absurd (step_next_cases ht).1 h
  · exact absurd ((State.waitsForLine_iff_in _).mp hw).1 h
  · exact heq

theorem Block.resume_of_terminal {b : Block} (h : b.core.run ≠ .running) : b.resume = b := by
  obtain ⟨t, ht, -⟩ | ⟨-, heq⟩ := b.resume_cases
  · exact absurd (step_next_cases ht).1 h
  · exact heq

/-- Settles O59: outside reset only a step or a resumed IN changes the state, and a terminal state has
neither. -/
theorem onlyResetLeavesATerminalState : Obligations.OnlyResetLeavesATerminalState := by
  intro b x hr hterm hx
  cases x with
  | assertReset => exact absurd rfl hx
  | releaseReset | setStepEn => rfl
  | load addr data => rw [Block.act_load_of_not_rst hr]
  | proceed =>
    obtain ⟨-, -, -, heq⟩ | heq := b.act_proceed_cases
    · rw [heq, Block.start_of_terminal hterm]
    · rw [heq]
  | offer codes =>
    have heq : b.act (.offer codes) = b.withCodes codes := by
      cases hw : b.inWait with
      | true => exact (Block.act_offer_of_inWait hw codes).trans (Block.resume_of_terminal hterm)
      | false => exact Block.act_offer_of_not_inWait hw codes
    rw [heq]
    rfl

/-! ### Requesting a line -/

/-- Only IN touches the buffer and the line trace, and it adds a line only with the buffer empty
(R25, R96). -/
theorem Effect.line_cases {i : Instr} {s t : State} (h : Effect i s t) :
    (t.lineTrace = s.lineTrace ∧ t.inBuf = s.inBuf) ∨
      ((∃ a, i = .inp a) ∧ (t.lineTrace = s.lineTrace ∨
        (s.inBuf = [] ∧ ∃ line, LineTail line ∧ t.lineTrace = s.lineTrace ++ [line]))) := by
  cases h with
  | input a c u is code =>
    refine .inr ⟨⟨a, is⟩, ?_⟩
    rw [State.advance_lineTrace, State.store_lineTrace]
    obtain ⟨-, ⟨-, htrace⟩ | ⟨hempty, hline, htrace⟩⟩ := State.nextInput_lines code
    · exact .inl htrace
    · exact .inr ⟨hempty, _, hline, htrace⟩
  | _ => exact .inl (by simp)

/-- The request rises only by starting an IN that finds no line (R31, R96). -/
theorem Block.request_rises {b : Block} {x : HostAction} (hi : b.Inv) (hlow : b.inWait = false)
    (hhigh : (b.act x).inWait = true) :
    x = .proceed ∧ b.rst = false ∧ b.stepEn = true ∧ (b.act x).core = b.core ∧
      b.core.waitsForLine = true := by
  have hns := hi.not_started_of_not_inWait hlow
  have hstarted : (b.act x).inStarted = true := (Bool.and_eq_true_iff.mp hhigh).2
  have hsame : (b.act x).inStarted ≠ b.inStarted := by simp [hstarted, hns]
  cases x with
  | assertReset => cases hstarted
  | releaseReset | setStepEn => exact absurd rfl hsame
  | load addr data =>
    cases hr : b.rst with
    | true => exact absurd (by rw [Block.act_load_of_rst hr]) hsame
    | false => exact absurd (by rw [Block.act_load_of_not_rst hr]) hsame
  | offer codes => exact absurd (by rw [Block.act_offer_of_not_inWait hlow]; rfl) hsame
  | proceed =>
    obtain ⟨hr, he, -, heq⟩ | heq := b.act_proceed_cases
    · rw [heq] at hsame ⊢
      obtain ⟨t, -, hstart⟩ | ⟨hwait, hstart⟩ | hstart := b.start_cases <;>
        rw [hstart] at hsame ⊢
      · exact absurd rfl hsame
      · exact ⟨rfl, hr, he, rfl, hwait⟩
      · exact absurd rfl hsame
    · exact absurd (by rw [heq]) hsame

/-- Settles O51: the effects of a step for the state, the rise of the request for the ports. -/
theorem linesAreRequestedOnlyByInOnAnEmptyBuffer :
    Obligations.LinesAreRequestedOnlyByInOnAnEmptyBuffer := by
  refine ⟨fun s t h => ?_, fun b x hi hlow hhigh => ?_⟩
  · obtain ⟨-, ⟨i, hfetch, hexec⟩ | ⟨e, v, -, rfl⟩⟩ := step_next_cases h
    · obtain ⟨htrace, hbuf⟩ | ⟨⟨a, rfl⟩, hline⟩ := (exec_effect hexec).line_cases
      · exact ⟨fun hne => absurd htrace hne, fun hne => absurd hbuf hne⟩
      · refine ⟨fun hne => ?_, fun _ => ⟨a, hfetch⟩⟩
        obtain ⟨hempty, hadded⟩ := hline.resolve_left hne
        exact ⟨hempty, ⟨a, hfetch⟩, hadded⟩
    · exact ⟨fun hne => absurd rfl hne, fun hne => absurd rfl hne⟩
  · obtain ⟨hx, hr, he, hcore, hwait⟩ := Block.request_rises hi hlow hhigh
    obtain ⟨-, hin, hempty, hline⟩ := (State.waitsForLine_iff_in _).mp hwait
    exact ⟨hx, hr, he, hcore, hempty, hline, hin⟩

end Sys2Proof.Machine
end

section
/-!
PROOFS. No step reads the traces or the error record (R24, R26, R28), and canonical memories are
extensional (R34, R35).
-/

namespace Sys2Proof.Machine

/-! ### The operations on a state without traces -/

theorem State.readOp_eraseTraces (s : State) (op : Operand) :
    s.eraseTraces.readOp op = s.readOp op := State.readOp_congr rfl op

theorem State.store_eraseTraces (s : State) (op : Operand) (v : Word) :
    s.eraseTraces.store op v = (s.store op v).eraseTraces := by cases op <;> rfl

/-- Stores to states that agree but for the traces agree but for the traces. -/
theorem State.eraseTraces_store_congr {s u : State} (h : u.eraseTraces = s.eraseTraces)
    (op : Operand) (v : Word) : (u.store op v).eraseTraces = (s.store op v).eraseTraces := by
  rw [← State.store_eraseTraces, h, State.store_eraseTraces]

/-- `next_input()` without the traces: the same wait, or the same code and a state that agrees. -/
theorem State.nextInput_eraseTraces (s : State) :
    (s.nextInput = none ∧ s.eraseTraces.nextInput = none) ∨
      ∃ c t u, s.nextInput = some (c, t) ∧ s.eraseTraces.nextInput = some (c, u) ∧
        u.eraseTraces = t.eraseTraces := by
  obtain ⟨c, rest, hb, hn⟩ | ⟨c, rest, after, hb, hl, hn⟩ | ⟨hb, hl, hn⟩ := s.nextInput_cases
  · exact .inr ⟨c, _, _, hn, State.nextInput_of_cons hb, rfl⟩
  · exact .inr ⟨c, _, _, hn, State.nextInput_of_line hb hl, rfl⟩
  · exact .inl ⟨hn, State.nextInput_of_wait hb hl⟩

/-! ### Outcomes that differ in the traces only -/

/-- The same kind of outcome: next states that agree but for the traces, and on the error in ERRORED;
or the same fault. -/
inductive SameButTraces : Result → Result → Prop
  | next {t u : State} (same : u.eraseTraces = t.eraseTraces)
      (error : t.run = .errored → u.errCode = t.errCode ∧ u.errValue = t.errValue) :
      SameButTraces (.next t) (.next u)
  | fault (f : Fault) : SameButTraces (.fault f) (.fault f)

/-- Outside ERRORED the error record is not compared. -/
theorem SameButTraces.of_safe {t u : State} (same : u.eraseTraces = t.eraseTraces)
    (safe : t.safe) : SameButTraces (.next t) (.next u) :=
  .next same (fun h => absurd h safe)

theorem SameButTraces.raise (s : State) (e : ErrorClass) (v : Word) :
    SameButTraces (.next (s.raise e v)) (.next (s.eraseTraces.raise e v)) :=
  .next rfl (fun _ => ⟨rfl, rfl⟩)

/-- The common end of every instruction with a destination. -/
theorem SameButTraces.store_advance (s u : State) (hs : s.safe)
    (same : u.eraseTraces = s.eraseTraces) (op : Operand) (v : Word) (n : Nat) :
    SameButTraces (.next ((s.store op v).advance n)) (.next ((u.store op v).advance n)) :=
  .of_safe (congrArg (State.advance · n) (State.eraseTraces_store_congr same op v))
    (by simpa [State.safe] using hs)

/-- An instruction reads neither the traces nor the error record. -/
theorem exec_eraseTraces (i : Instr) {s : State} (hs : s.safe) :
    SameButTraces (exec i s) (exec i s.eraseTraces) := by
  cases i with
  | halt => exact .of_safe rfl (by simp [State.safe])
  | jmp a | wmem a b | noop | out a => exact .of_safe rfl hs
  | set a b | not a b | rmem a b => exact .store_advance s s.eraseTraces hs rfl a _ 3
  | eq a b c | gt a b c | add a b c | mult a b c | and a b c | or a b c =>
    exact .store_advance s s.eraseTraces hs rfl a _ 4
  | jt a b =>
    simp only [exec, execJt, State.readOp_eraseTraces]
    split
    · exact .of_safe rfl hs
    · exact .of_safe rfl hs
  | jf a b =>
    simp only [exec, execJf, State.readOp_eraseTraces]
    split
    · exact .of_safe rfl hs
    · exact .of_safe rfl hs
  | mod a b c =>
    simp only [exec, execMod, State.readOp_eraseTraces]
    split
    · exact .raise s _ 0
    · exact .store_advance s s.eraseTraces hs rfl a _ 4
  | push a =>
    by_cases h : s.stackCapacity = some s.stack.length
    · rw [exec_push_of_full h, exec_push_of_full (s := s.eraseTraces) h]
      exact .raise s _ 0
    · rw [exec_push_of_room h, exec_push_of_room (s := s.eraseTraces) h]
      exact .of_safe rfl hs
  | call a =>
    by_cases h : s.stackCapacity = some s.stack.length
    · rw [exec_call_of_full h, exec_call_of_full (s := s.eraseTraces) h]
      exact .raise s _ 0
    · rw [exec_call_of_room h, exec_call_of_room (s := s.eraseTraces) h]
      exact .of_safe rfl hs
  | pop a =>
    cases h : s.stack with
    | nil =>
      rw [exec_pop_of_nil h, exec_pop_of_nil (s := s.eraseTraces) h]
      exact .raise s _ 0
    | cons v rest =>
      rw [exec_pop_of_cons h, exec_pop_of_cons (s := s.eraseTraces) h]
      exact .store_advance { s with stack := rest } { s.eraseTraces with stack := rest } hs rfl a v 2
  | ret =>
    cases h : s.stack with
    | nil =>
      rw [exec_ret_of_nil h, exec_ret_of_nil (s := s.eraseTraces) h]
      exact .of_safe rfl (by simp [State.safe])
    | cons v rest =>
      rw [exec_ret_of_cons h, exec_ret_of_cons (s := s.eraseTraces) h]
      exact .of_safe rfl hs
  | inp a =>
    obtain ⟨hn, hn'⟩ | ⟨c, t, u, hn, hn', same⟩ := s.nextInput_eraseTraces <;>
      simp only [exec, execIn, hn, hn']
    · exact .fault _
    · obtain ⟨-, -, -, -, hrun, -⟩ := State.nextInput_leaves hn
      exact .store_advance t u (by rwa [State.safe, hrun]) same a _ 2

/-- A step reads neither the traces nor the error record: the fetch reads memory and pc only. -/
theorem step_eraseTraces (s : State) : SameButTraces (step s) (step s.eraseTraces) := by
  have hfetch : s.eraseTraces.fetch = s.fetch := rfl
  cases hr : s.run with
  | halted =>
    rw [(terminalStatesHaveNoStep s).1 hr, (terminalStatesHaveNoStep s.eraseTraces).1 hr]
    exact .fault _
  | errored =>
    rw [(terminalStatesHaveNoStep s).2 hr, (terminalStatesHaveNoStep s.eraseTraces).2 hr]
    exact .fault _
  | running =>
    cases hf : s.fetch with
    | ok i =>
      rw [step_of_fetch_ok hr hf, step_of_fetch_ok (s := s.eraseTraces) hr (hfetch.trans hf)]
      exact exec_eraseTraces i (by simp [State.safe, hr])
    | error p =>
      obtain ⟨e, v⟩ := p
      rw [step_of_fetch_error hr hf, step_of_fetch_error (s := s.eraseTraces) hr (hfetch.trans hf)]
      exact .raise s e v

/-- Settles O52: the two outcomes differ in the traces only. -/
theorem tracesAndErrorRecordAreNeverRead : Obligations.TracesAndErrorRecordAreNeverRead := by
  intro s
  have h := step_eraseTraces s
  generalize step s = x, step s.eraseTraces = y at h ⊢
  cases h with
  | next same error => exact ⟨same, error⟩
  | fault f => rfl

/-! ### Canonical memories -/

/-- Below its least listed address a memory reads 0. -/
theorem Memory.read_of_lt {m : Memory} {low a : Nat} (hm : Memory.wfFrom low m = true)
    (ha : a < low) : m.read a = 0 := by
  induction m generalizing low with
  | nil => rfl
  | cons cell rest ih =>
    obtain ⟨k, w⟩ := cell
    obtain ⟨hlow, -, -, hrest⟩ := (Memory.wfFrom_cons ..).mp hm
    rw [Memory.read_cons, if_neg (by omega)]
    exact ih hrest (by omega)

theorem Memory.read_cons_self (k : Nat) (w : Word) (rest : Memory) :
    Memory.read ((k, w) :: rest) k = w := if_pos rfl

/-- A memory that reads a nonzero word at `k` lists an address of at most `k` first. -/
theorem Memory.head_le_of_read_ne_zero {low k k' : Nat} {w : Word} {rest : Memory}
    (hm : Memory.wfFrom low ((k, w) :: rest) = true)
    (hne : Memory.read ((k, w) :: rest) k' ≠ 0) : k ≤ k' := by
  obtain ⟨-, hk, hw, hrest⟩ := (Memory.wfFrom_cons ..).mp hm
  have hm' := (Memory.wfFrom_cons k k w rest).mpr ⟨Nat.le_refl k, hk, hw, hrest⟩
  exact Nat.le_of_not_lt (fun hlt => hne (Memory.read_of_lt hm' hlt))

/-- Canonical memories that read alike are the same list: their first addresses agree, with the words
there, and so do the rests. -/
theorem Memory.ext_of_wfFrom {m n : Memory} {low low' : Nat} (hm : Memory.wfFrom low m = true)
    (hn : Memory.wfFrom low' n = true) (h : ∀ a, m.read a = n.read a) : m = n := by
  induction m generalizing n low low' with
  | nil =>
    cases n with
    | nil => rfl
    | cons cell rest =>
      obtain ⟨k, w⟩ := cell
      obtain ⟨-, -, hw, -⟩ := (Memory.wfFrom_cons ..).mp hn
      exact absurd ((Memory.read_cons_self k w rest).symm.trans (h k).symm) hw
  | cons cell rest ih =>
    obtain ⟨k, w⟩ := cell
    obtain ⟨-, -, hw, hrest⟩ := (Memory.wfFrom_cons ..).mp hm
    have hk := h k
    rw [Memory.read_cons_self] at hk
    cases n with
    | nil => exact absurd hk hw
    | cons cell' rest' =>
      obtain ⟨k', w'⟩ := cell'
      obtain ⟨-, -, hw', hrest'⟩ := (Memory.wfFrom_cons ..).mp hn
      have hk' := h k'
      rw [Memory.read_cons_self] at hk'
      obtain rfl : k = k' := Nat.le_antisymm
        (Memory.head_le_of_read_ne_zero hm (by rwa [hk']))
        (Memory.head_le_of_read_ne_zero hn (by rwa [← hk]))
      obtain rfl : w = w' := by rwa [Memory.read_cons_self] at hk
      refine congrArg _ (ih hrest hrest' (fun a => ?_))
      by_cases ha : a = k
      · subst ha
        rw [Memory.read_of_lt hrest (Nat.lt_succ_self a),
          Memory.read_of_lt hrest' (Nat.lt_succ_self a)]
      · have hread := h a
        rwa [Memory.read_cons, Memory.read_cons, if_neg (Ne.symm ha), if_neg (Ne.symm ha)] at hread

/-- Settles O53, by induction over the two lists. -/
theorem canonicalMemoriesThatReadAlikeAreEqual :
    Obligations.CanonicalMemoriesThatReadAlikeAreEqual :=
  fun _ _ hm hn h => Memory.ext_of_wfFrom hm hn h

end Sys2Proof.Machine
end

section
/-!
PROOFS. The decoder takes back what the encoder wrote, the instruction stored at pc is the one executed,
a store is seen by the next fetch, and the bytes of an image (R36, R44, R47, R58, R105).
-/

namespace Sys2Proof

/-! ### Decoding what was encoded -/

theorem decodeFormat1_toWord (mk : Operand → Instr) (a : Operand) (rest : List Word) :
    decodeFormat1 mk (a.toWord :: rest) = .ok (mk a, rest) := by
  simp [decodeFormat1]

theorem decodeFormat2_toWord (mk : Operand → Operand → Instr) (a b : Operand) (rest : List Word) :
    decodeFormat2 mk (a.toWord :: b.toWord :: rest) = .ok (mk a b, rest) := by
  simp [decodeFormat2]

theorem decodeFormat3_toWord (mk : Operand → Operand → Operand → Instr) (a b c : Operand)
    (rest : List Word) :
    decodeFormat3 mk (a.toWord :: b.toWord :: c.toWord :: rest) = .ok (mk a b c, rest) := by
  simp [decodeFormat3]

/-- The decoder answers the encoded instruction and leaves the words after it (R48, R49). -/
theorem decode_encode_append (i : Instr) (rest : List Word) :
    decode (encode i ++ rest) = .ok (i, rest) := by
  cases i with
  | halt | ret | noop => rfl
  | push | pop | jmp | call | out | inp => exact decodeFormat1_toWord _ _ rest
  | set | jt | jf | not | rmem | wmem => exact decodeFormat2_toWord _ _ _ rest
  | eq | gt | add | mult | mod | and | or => exact decodeFormat3_toWord _ _ _ _ rest

theorem length_encode_le (i : Instr) : (encode i).length ≤ 4 := by
  cases i <;> simp [encode]

end Sys2Proof

namespace Sys2Proof.Machine

/-! ### The instruction stored at pc -/

/-- The fetch window begins with the words of the instruction stored at pc (R48). -/
theorem State.encode_prefix_fetchWindow {s : State} {i : Instr}
    (hfits : s.pc.toNat + (encode i).length ≤ 32768)
    (hwords : ∀ (k : Nat) (h : k < (encode i).length),
      s.mem.read (s.pc.toNat + k) = (encode i)[k]) : encode i <+: s.fetchWindow := by
  have hle := length_encode_le i
  rw [List.prefix_iff_getElem?]
  intro k hk
  rw [s.fetchWindow_get k (by omega), hwords k hk]

/-- Settles O11: the fetch window begins with the stored words, which decode to the instruction. -/
theorem stepExecutesTheInstructionStoredAtPc :
    Obligations.StepExecutesTheInstructionStoredAtPc := by
  intro s i hrun hfits hwords
  obtain ⟨rest, hwindow⟩ := State.encode_prefix_fetchWindow hfits hwords
  have hdecode : decode s.fetchWindow = .ok (i, rest) := hwindow ▸ decode_encode_append i rest
  exact stepExecutesTheDecodedInstruction s i rest hrun hdecode

/-- The word 0 at pc is a HALT (R49, R63). -/
theorem step_of_zero_at_pc {s : State} (hrun : s.run = .running) (hpc : s.pc.toNat < 32768)
    (hzero : s.mem.read s.pc.toNat = 0) : step s = .next (s.halt.advance 1) := by
  refine stepExecutesTheInstructionStoredAtPc s .halt hrun hpc (fun k hk => ?_)
  obtain rfl : k = 0 := Nat.lt_one_iff.mp hk
  exact hzero

/-! ### A store at the next pc -/

theorem State.toNat_advance_pc {s : State} {n : Nat} (h : s.pc.toNat + n < 65536) :
    (s.advance n).pc.toNat = s.pc.toNat + n := by
  rw [State.advance_pc, BitVec.toNat_add, BitVec.toNat_ofNat]
  omega

/-- Storing a value at an address puts that very value there (R13, R81). -/
theorem State.memRead_memWrite_widen (s : State) (a v : Value) :
    (s.memWrite a (widen v)).memRead a = widen v := by
  rw [State.memRead_memWrite_same, reduce_widen]

/-- Settles O33: after the store the word at the next pc is 0, a HALT. -/
theorem wmemIsSeenByTheNextFetch : Obligations.WmemIsSeenByTheNextFetch := by
  intro s hrun hpc
  generalize ha : BitVec.ofNat 15 (s.pc.toNat + 3) = a
  have haddr : a.toNat = s.pc.toNat + 3 := by
    rw [← ha, BitVec.toNat_ofNat, Nat.mod_eq_of_lt hpc]
  have hnext : ((s.memWrite a (widen 0)).advance 3).pc.toNat = a.toNat := by
    rw [haddr]
    exact State.toNat_advance_pc (s := s.memWrite a (widen 0)) (by rw [State.memWrite_pc]; omega)
  refine ⟨(s.memWrite a (widen 0)).advance 3, rfl, step_of_zero_at_pc hrun ?_ ?_⟩ <;> rw [hnext]
  · exact a.isLt
  · exact s.memRead_memWrite_widen a 0

/-! ### The bytes of an image -/

theorem imageOfBytes_cons_cons (lo hi : BitVec 8) (rest : List (BitVec 8)) :
    imageOfBytes (lo :: hi :: rest) =
      (imageOfBytes rest).map (BitVec.ofNat 16 (lo.toNat + 256 * hi.toNat) :: ·) := by
  rw [imageOfBytes]
  cases imageOfBytes rest <;> rfl

/-- Two bytes fit in a word. -/
theorem toNat_ofNat_bytePair (lo hi : BitVec 8) :
    (BitVec.ofNat 16 (lo.toNat + 256 * hi.toNat)).toNat = lo.toNat + 256 * hi.toNat := by
  have hlo := lo.isLt
  have hhi := hi.isLt
  rw [BitVec.toNat_ofNat, Nat.mod_eq_of_lt (by omega)]

/-- Half as many words as bytes, word k made of the bytes 2k, the low one, and 2k + 1 (R36). -/
def PairsBytes (bytes : List (BitVec 8)) (words : List Word) : Prop :=
  bytes.length = 2 * words.length ∧
    ∀ (k : Nat) (w : Word), words[k]? = some w →
      w.toNat = (bytes[2 * k]?.getD 0).toNat + 256 * (bytes[2 * k + 1]?.getD 0).toNat

theorem PairsBytes.cons {bytes : List (BitVec 8)} {words : List Word} (h : PairsBytes bytes words)
    (lo hi : BitVec 8) :
    PairsBytes (lo :: hi :: bytes) (BitVec.ofNat 16 (lo.toNat + 256 * hi.toNat) :: words) := by
  obtain ⟨hlen, hwords⟩ := h
  refine ⟨by simp only [List.length_cons]; omega, fun k w hw => ?_⟩
  cases k with
  | zero =>
    obtain rfl := Option.some.inj hw
    exact toNat_ofNat_bytePair lo hi
  | succ k => exact hwords k w hw

theorem imageOfBytes_of_even {bytes : List (BitVec 8)} (h : bytes.length % 2 = 0) :
    ∃ words, imageOfBytes bytes = some words ∧ PairsBytes bytes words := by
  induction bytes using List.twoStepInduction with
  | nil => exact ⟨[], rfl, rfl, nofun⟩
  | singleton => cases h
  | cons_cons lo hi rest ih =>
    rw [List.length_cons, List.length_cons] at h
    obtain ⟨words, himage, hpairs⟩ := ih (by omega)
    exact ⟨_, by rw [imageOfBytes_cons_cons, himage, Option.map_some], hpairs.cons lo hi⟩

theorem imageOfBytes_of_odd {bytes : List (BitVec 8)} (h : bytes.length % 2 = 1) :
    imageOfBytes bytes = none := by
  induction bytes using List.twoStepInduction with
  | nil => cases h
  | singleton => rfl
  | cons_cons lo hi rest ih =>
    rw [List.length_cons, List.length_cons] at h
    rw [imageOfBytes_cons_cons, ih (by omega), Option.map_none]

/-- Settles O56, by induction over the pairs of bytes. -/
theorem imageWordsAreLittleEndianBytePairs : Obligations.ImageWordsAreLittleEndianBytePairs :=
  fun _ => ⟨imageOfBytes_of_even, imageOfBytes_of_odd⟩

end Sys2Proof.Machine
end

section
/-!
PROOFS. The decoder and the encoder are inverse to each other, on exactly the well-formed words (R48 to
R57); the class of an operand word (R51, R52); and the one cause of each instruction's own error (R88).
-/

namespace Sys2Proof

/-! ### Well-formed words are encodings -/

/-- The words are well-formed when the opcode's row has as many operands as there are words after it,
all legal (R48, R49, R51). -/
theorem wordsWellFormed_cons_iff {op : Word} {operands : List Word} :
    wordsWellFormed (op :: operands) = true ↔
      operandCounts[op.toNat]? = some operands.length ∧ ∀ w ∈ operands, w.toNat < 32776 := by
  rw [wordsWellFormed]
  cases operandCounts[op.toNat]? with
  | none => simp
  | some n => simp [operandWordLegal, @eq_comm _ n]

/-- Legal operand words are the words of operands (R51). -/
theorem exists_map_toWord_of_lt {ws : List Word} (h : ∀ w ∈ ws, w.toNat < 32776) :
    ∃ os : List Operand, os.map Operand.toWord = ws := by
  refine (Set.ext_iff.mp (Set.range_list_map Operand.toWord) ws).mpr (fun w hw => ?_)
  obtain ⟨o, ho⟩ := operandOfWord_of_lt (h w hw)
  exact ⟨o, toWord_of_operandOfWord ho⟩

/-- A legal opcode word and the words of as many operands as its row has are an encoding. -/
theorem DecodesBy.eq_encode {op : Word} {ws : List Word} {os : List Operand} {n : Nat}
    (h : DecodesBy op ws n) (hn : os.length = n) :
    ∃ i, op :: os.map Operand.toWord = encode i := by
  cases h with
  | format0 i _ words =>
    obtain rfl := List.length_eq_zero_iff.mp hn
    exact ⟨i, words.symm⟩
  | format1 mk _ words =>
    obtain ⟨a, rfl⟩ := List.length_eq_one_iff.mp hn
    exact ⟨mk a, (words a).symm⟩
  | format2 mk _ words =>
    obtain ⟨a, b, rfl⟩ := List.length_eq_two.mp hn
    exact ⟨mk a b, (words a b).symm⟩
  | format3 mk _ words =>
    obtain ⟨a, b, c, rfl⟩ := List.length_eq_three.mp hn
    exact ⟨mk a b c, (words a b c).symm⟩

theorem wordsWellFormed_encode (i : Instr) : wordsWellFormed (encode i) = true := by
  cases i <;> exact wordsWellFormed_cons_iff.mpr ⟨rfl, by simp [Operand.toWord_lt]⟩

/-- The word check accepts exactly the encodings. -/
theorem wordsWellFormed_iff {ws : List Word} : wordsWellFormed ws = true ↔ ∃ i, ws = encode i := by
  constructor
  · intro h
    cases ws with
    | nil => cases h
    | cons op operands =>
      obtain ⟨hcount, hlegal⟩ := wordsWellFormed_cons_iff.mp h
      obtain ⟨os, rfl⟩ := exists_map_toWord_of_lt hlegal
      exact (DecodesBy.of_operandCounts [] hcount).eq_encode (List.length_map _).symm
  · rintro ⟨i, rfl⟩
    exact wordsWellFormed_encode i

/-- The decoder answers an instruction and a rest for its encoding followed by that rest, and for no
other words. -/
theorem decode_eq_ok_iff {ws rest : List Word} {i : Instr} :
    decode ws = .ok (i, rest) ↔ ws = encode i ++ rest :=
  ⟨eq_encode_of_decode, fun h => h ▸ decode_encode_append i rest⟩

end Sys2Proof

namespace Sys2Proof.Machine

/-! ### The statements -/

/-- Settles O5, by the format of each instruction: an operand's word reads back as that operand. -/
theorem decodeReadsEveryEncodedInstruction : Obligations.DecodeReadsEveryEncodedInstruction :=
  decode_encode_append

/-- Settles O6, by the format the opcode word selects: a word read as an operand is that operand's. -/
theorem encodeWritesTheDecodedWords : Obligations.EncodeWritesTheDecodedWords :=
  fun _ _ _ => eq_encode_of_decode

/-- Settles O7: the word check and the decoder both accept exactly the encodings. -/
theorem decodeAcceptsExactlyTheWellFormedWords :
    Obligations.DecodeAcceptsExactlyTheWellFormedWords := by
  intro ws
  simp only [decode_eq_ok_iff, List.append_nil, wordsWellFormed_iff]

/-- Settles O46: of the effects only an instruction's own error leaves a safe state ERRORED, and it
carries its cause. -/
theorem instructionErrorsHaveTheirOneCause : Obligations.InstructionErrorsHaveTheirOneCause := by
  intro i s t hs h ht
  cases exec_effect h with
  | raised e cause => exact ⟨rfl, cause⟩
  | halted _ => exact absurd (by simp [State.safe]) ht
  | input a c u _ code =>
    obtain ⟨-, -, -, -, hrun, -⟩ := State.nextInput_leaves code
    exact absurd (by simpa [State.safe, hrun] using hs) ht
  | _ => exact absurd (by simpa [State.safe] using hs) ht

/-- Settles O8: the decoder evaluates on each sequence. -/
theorem writtenOutWordsDecodeToTheirInstructions :
    Obligations.WrittenOutWordsDecodeToTheirInstructions :=
  ⟨rfl, rfl, rfl, rfl, rfl, rfl, rfl, rfl, rfl⟩

/-- Settles O9, by the class of the word; a word equal to 32768 + r is the word of register r. -/
theorem operandWordsReadAsTheirClass : Obligations.OperandWordsReadAsTheirClass := by
  refine fun w s => ⟨fun hlit => ⟨_, operandOfWord_lit hlit, ?_⟩, fun r hreg => ?_,
    operandOfWord_of_ge⟩
  · rw [State.readOp_lit, BitVec.toNat_setWidth, Nat.mod_eq_of_lt hlit]
  · obtain rfl : w = (Operand.reg r).toWord :=
      BitVec.eq_of_toNat_eq (hreg.trans (toNat_toWord_reg r).symm)
    exact ⟨.reg r, operandOfWord_toWord _, rfl⟩

end Sys2Proof.Machine
end

section
/-!
PROOFS. The rest of the instructions HALT, SET, PUSH, POP (spec 41_halt_set_stack.md R64 to R66).
-/

namespace Sys2Proof.Machine

/-- Settles O15: SET ends as every instruction with a destination does, and a read value is
below 32768, so its reduction is itself. -/
theorem setWritesTheReadValue : Obligations.SetWritesTheReadValue :=
  fun a b s => ⟨rfl, _, rfl, s.store_widen_writesDest a (s.readOp b) 3⟩

/-- Settles O18: `pop` of the empty stack gives nothing, and the error is raised on the same state. -/
theorem popOfEmptyStackUnderflows : Obligations.PopOfEmptyStackUnderflows :=
  fun _ _ => exec_pop_of_nil

/-- Settles O19: the POP finds the pushed word on top, and its reduction gives back the value that PUSH
widened. -/
theorem pushThenPopMovesTheValue : Obligations.PushThenPopMovesTheValue := by
  intro a r s hroom
  have htop : ((s.pushEntry (widen (s.readOp a))).advance 2).stack =
      widen (s.readOp a) :: s.stack := rfl
  refine ⟨_, _, exec_push_of_room hroom, exec_pop_of_cons htop, ?_, rfl⟩
  calc
    _ = reduce (widen (s.readOp a)) := State.getReg_setReg_same _ r _
    _ = s.readOp a := reduce_widen _

end Sys2Proof.Machine
end

section
/-!
PROOFS. The comparisons EQ and GT (spec 42_compare.md R67, R68).
-/

namespace Sys2Proof.Machine

/-! ### The ALU's comparisons, as numbers -/

/-- Values are equal exactly when their numbers are, so the comparison is one of numbers. -/
theorem toNat_aluEq (b c : Value) : (aluEq b c).toNat = if b.toNat = c.toNat then 1 else 0 := by
  by_cases h : b = c
  · simp [aluEq, h]
  · have hne : b.toNat ≠ c.toNat := mt BitVec.eq_of_toNat_eq h
    simp [aluEq, h, hne]

theorem toNat_aluGt (b c : Value) : (aluGt b c).toNat = if b.toNat > c.toNat then 1 else 0 := by
  rw [aluGt, apply_ite BitVec.toNat]
  rfl

/-! ### The statements -/

/-- Settles O20: EQ ends as every instruction with a destination does, and what it stores is the
number the ALU's comparison gives. -/
theorem eqWritesOneOrZero : Obligations.EqWritesOneOrZero := by
  intro a b c s
  refine ⟨rfl, _, rfl, ?_⟩
  rw [← toNat_aluEq]
  exact s.store_widen_writesDest a (aluEq (s.readOp b) (s.readOp c)) 4

/-- Settles O21: GT ends as every instruction with a destination does, and what it stores is the
number the ALU's unsigned, strict comparison gives. -/
theorem gtWritesOneOrZero : Obligations.GtWritesOneOrZero := by
  intro a b c s
  refine ⟨rfl, _, rfl, ?_⟩
  rw [← toNat_aluGt]
  exact s.store_widen_writesDest a (aluGt (s.readOp b) (s.readOp c)) 4

end Sys2Proof.Machine
end

section
/-!
PROOFS. The jumps JMP, JT, JF (spec 43_jumps.md R69 to R71).
-/

namespace Sys2Proof.Machine

/-! ### Taken and not taken, by the number of the tested value -/

section
variable {a : Operand} {s : State}

theorem exec_jt_of_zero {b : Operand} (h : (s.readOp a).toNat = 0) :
    exec (.jt a b) s = .next (s.advance 3) :=
  if_neg (not_not_intro (BitVec.eq_of_toNat_eq h))

theorem exec_jt_of_ne_zero {b : Operand} (h : (s.readOp a).toNat ≠ 0) :
    exec (.jt a b) s = .next (s.setPc (widen (s.readOp b))) :=
  if_pos (ne_of_apply_ne BitVec.toNat h)

theorem exec_jf_of_zero {b : Operand} (h : (s.readOp a).toNat = 0) :
    exec (.jf a b) s = .next (s.setPc (widen (s.readOp b))) :=
  if_pos (BitVec.eq_of_toNat_eq h)

theorem exec_jf_of_ne_zero {b : Operand} (h : (s.readOp a).toNat ≠ 0) :
    exec (.jf a b) s = .next (s.advance 3) :=
  if_neg (ne_of_apply_ne BitVec.toNat h)

end

/-! ### The statements -/

/-- Settles O22: the pc is the read value as a word, which keeps its number. -/
theorem jmpSetsThePc : Obligations.JmpSetsThePc :=
  fun _ _ => ⟨rfl, _, rfl, toNat_widen _, rfl⟩

/-- Settles O23: on the tested value being 0, JF is taken and JT is not; else JT is taken and JF is
not. -/
theorem conditionalJumpsTestForZero : Obligations.ConditionalJumpsTestForZero := by
  intro a b s
  refine ⟨rfl, rfl, ?_⟩
  by_cases h : (s.readOp a).toNat = 0
  · simp only [if_pos h]
    exact ⟨⟨_, exec_jt_of_zero h, rfl, rfl⟩, ⟨_, exec_jf_of_zero h, rfl, toNat_widen _⟩⟩
  · simp only [if_neg h]
    exact ⟨⟨_, exec_jt_of_ne_zero h, rfl, toNat_widen _⟩, ⟨_, exec_jf_of_ne_zero h, rfl, rfl⟩⟩

end Sys2Proof.Machine
end

section
/-!
PROOFS. The ALU's ADD, MULT, MOD, AND, OR, NOT (spec 44_alu.md R72 to R78). Each ends by storing an ALU
result; the two idioms are then chained from the statements on ADD and NOT.
-/

namespace Sys2Proof.Machine

/-! ### A stored result, given by its number -/

theorem State.store_widen_writesDest_of_toNat {v : Value} {n : Nat} (h : v.toNat = n) (s : State)
    (a : Operand) (len : Nat) : WritesDest a n len s ((s.store a (widen v)).advance len) :=
  h ▸ s.store_widen_writesDest a v len

/-- An operand other than the destination reads as before: a literal always, a register by the
frame. -/
theorem WritesDest.readOp_eq {a b : Operand} {v len : Nat} {s t : State}
    (h : WritesDest a v len s t) (hb : b ≠ a) : t.readOp b = s.readOp b := by
  cases b with
  | lit n => rfl
  | reg r => exact h.frame.regs r hb.symm

/-! ### The two outcomes of MOD, by the number of the divisor -/

theorem exec_mod_of_zero {a b c : Operand} {s : State} (h : (s.readOp c).toNat = 0) :
    exec (.mod a b c) s = .next (s.raise .divisionByZero 0) :=
  if_pos (BitVec.eq_of_toNat_eq h)

theorem exec_mod_of_ne_zero {a b c : Operand} {s : State} (h : (s.readOp c).toNat ≠ 0) :
    exec (.mod a b c) s =
      .next ((s.store a (widen (aluMod (s.readOp b) (s.readOp c)))).advance 4) :=
  if_neg (ne_of_apply_ne BitVec.toNat h)

/-! ### The statements on one instruction -/

/-- Settles O24: what ADD stores is the ALU's sum. -/
theorem addWritesTheSumMod32768 : Obligations.AddWritesTheSumMod32768 :=
  fun a _ _ s => ⟨rfl, _, rfl, State.store_widen_writesDest_of_toNat (toNat_aluAdd _ _) s a 4⟩

/-- Settles O25: what MULT stores is the ALU's product. -/
theorem multWritesTheProductMod32768 : Obligations.MultWritesTheProductMod32768 :=
  fun a _ _ s => ⟨rfl, _, rfl, State.store_widen_writesDest_of_toNat (toNat_aluMult _ _) s a 4⟩

/-- Settles O26: the divisor decides; what MOD stores is the ALU's remainder. -/
theorem modWritesTheRemainderOrDividesByZero : Obligations.ModWritesTheRemainderOrDividesByZero :=
  fun a _ _ s => ⟨rfl,
    fun hc => ⟨_, exec_mod_of_ne_zero hc,
      State.store_widen_writesDest_of_toNat (toNat_aluMod _ _) s a 4⟩,
    exec_mod_of_zero⟩

/-- Settles O27: what AND and OR store is the ALU's, whose bits are the bits of the numbers. -/
theorem andOrActBitByBit : Obligations.AndOrActBitByBit :=
  fun a _ _ s => ⟨rfl, rfl,
    ⟨_, rfl, State.store_widen_writesDest_of_toNat (toNat_aluAnd _ _) s a 4⟩,
    ⟨_, rfl, State.store_widen_writesDest_of_toNat (toNat_aluOr _ _) s a 4⟩⟩

/-- Settles O28: what NOT stores is the ALU's complement. -/
theorem notWritesTheFifteenBitComplement : Obligations.NotWritesTheFifteenBitComplement :=
  fun a _ s => ⟨rfl, _, rfl, State.store_widen_writesDest_of_toNat (toNat_aluNot _) s a 3⟩

/-! ### The statements on two and three instructions -/

/-- Settles O29, by the statement on NOT twice: `32767 - (32767 - x)` is `x` for `x` of 15 bits. -/
theorem notTwiceRestoresTheRegister : Obligations.NotTwiceRestoresTheRegister := by
  intro r s
  obtain ⟨-, t, ht, hfirst⟩ := notWritesTheFifteenBitComplement (.reg r) (.reg r) s
  obtain ⟨-, u, hu, hsecond⟩ := notWritesTheFifteenBitComplement (.reg r) (.reg r) t
  refine ⟨t, u, ht, hu, BitVec.eq_of_toNat_eq ?_⟩
  have hx := (s.getReg r).isLt
  calc (u.getReg r).toNat
    _ = 32767 - (t.getReg r).toNat := hsecond.value
    _ = 32767 - (32767 - (s.getReg r).toNat) := congrArg (32767 - ·) hfirst.value
    _ = (s.getReg r).toNat := by omega

/-- Settles O30, by the statements on NOT and ADD: the first two instructions write `d` only, so the
third still reads the minuend of the first state, and adds the negated subtrahend to it (R72). -/
theorem notAddAddSubtracts : Obligations.NotAddAddSubtracts := by
  intro d b c s hbd
  obtain ⟨-, t, ht, hnot⟩ := notWritesTheFifteenBitComplement (.reg d) c s
  obtain ⟨-, u, hu, hone⟩ := addWritesTheSumMod32768 (.reg d) (.reg d) (.lit 1) t
  obtain ⟨-, w, hw, hsum⟩ := addWritesTheSumMod32768 (.reg d) b (.reg d) u
  refine ⟨t, u, w, ht, hu, hw, ?_⟩
  have hminuend : u.readOp b = s.readOp b := (hone.readOp_eq hbd).trans (hnot.readOp_eq hbd)
  have hcomplement : (t.getReg d).toNat = 32767 - (s.readOp c).toNat := hnot.value
  have hnegated : (u.getReg d).toNat = ((t.getReg d).toNat + 1) % 32768 := hone.value
  have hc := (s.readOp c).isLt
  calc (w.getReg d).toNat
    _ = ((u.readOp b).toNat + (u.getReg d).toNat) % 32768 := hsum.value
    _ = ((s.readOp b).toNat + (32767 - (s.readOp c).toNat + 1) % 32768) % 32768 := by
      rw [hminuend, hnegated, hcomplement]
    _ = ((s.readOp b).toNat + 32768 - (s.readOp c).toNat) % 32768 := by omega

end Sys2Proof.Machine
end

section
/-!
PROOFS. The rest of the memory access instructions RMEM, WMEM (spec 45_memory_access.md R81).
-/

namespace Sys2Proof.Machine

/-- WMEM ends as an instruction does whose literal destination is the address it reads. -/
theorem exec_wmem_writesDest (a b : Operand) (s : State) :
    ∃ t, exec (.wmem a b) s = .next t ∧
      WritesDest (.lit (s.readOp a)) (s.readOp b).toNat 3 s t :=
  ⟨_, rfl, s.store_widen_writesDest (.lit (s.readOp a)) (s.readOp b) 3⟩

/-- Settles O32: the frame of a literal destination is every other memory word and every register. -/
theorem wmemWritesTheAddressedWord : Obligations.WmemWritesTheAddressedWord := by
  intro a b s
  obtain ⟨t, hexec, hwrites⟩ := exec_wmem_writesDest a b s
  refine ⟨rfl, t, hexec, hwrites.value, fun n hn => ?_, fun r => ?_, hwrites.pc, hwrites.frame.rest⟩
  · exact hwrites.frame.mem n (fun h => hn (Operand.lit.inj h).symm)
  · exact hwrites.frame.regs r nofun

end Sys2Proof.Machine
end

section
/-!
PROOFS. The rest of the instructions CALL, RET (spec 46_call_return.md R82, R83).
-/

namespace Sys2Proof.Machine

/-- Settles O36: with room CALL leaves `pc + 2` on top of the stack, and RET pops the top entry into
the pc. -/
theorem callThenRetResumesAfterTheCall : Obligations.CallThenRetResumesAfterTheCall := by
  intro a s t m hroom hcall hstack
  obtain rfl := Host.Outcome.next.inj ((exec_call_of_room hroom).symm.trans hcall)
  have htop : m.stack = (s.pc + 2) :: s.stack := hstack
  exact ⟨_, exec_ret_of_cons htop, rfl, rfl⟩

/-- Settles O35, by the two cases of the stack: RET takes the top entry, or halts without one. -/
theorem retPopsIntoThePcOrHalts : Obligations.RetPopsIntoThePcOrHalts :=
  fun _ => ⟨rfl, fun _ _ htop => ⟨_, exec_ret_of_cons htop, rfl⟩, exec_ret_of_nil⟩

end Sys2Proof.Machine
end

section
/-!
PROOFS. The rest of the instructions OUT, IN, NOOP (spec 47_io_noop.md R84, R85, R86), and the end of a
started IN's wait at the ports (R96, R99).
-/

namespace Sys2Proof.Machine

/-! ### The end of the wait -/

/-- A waiting IN has a next state once the codes to come end a line (R85, R99). -/
theorem State.step_next_of_line {s : State} (h : s.waitsForLine = true) {codes : List Code}
    (hline : Config.lineTerminator ∈ codes) :
    ∃ t, step { s with hostInput := s.hostInput ++ codes } = .next t := by
  obtain ⟨hrun, -⟩ := s.waitsForLine_iff_in.mp h
  refine (State.step_next_or_waits (s := { s with hostInput := s.hostInput ++ codes })
    hrun).resolve_right fun hwait => ?_
  obtain ⟨-, -, -, hnone⟩ := (State.waitsForLine_iff_in _).mp hwait
  exact hnone (List.mem_append_right _ hline)

/-- Codes that end no line are added to the host's, and nothing else happens (R96, R99). -/
theorem Block.act_offer_without_line {b : Block} (h : b.core.waitsForLine = true)
    {codes : List Code} (hline : Config.lineTerminator ∉ codes) :
    b.act (.offer codes) = b.withCodes codes := by
  cases hw : b.inWait with
  | true =>
    exact (Block.act_offer_of_inWait hw codes).trans
      (Block.resume_of_wait (State.waitsForLine_offer h hline))
  | false => exact Block.act_offer_of_not_inWait hw codes

/-- Only reset and codes touch a started IN: every other action keeps the state, the level of reset
and the wait (R85, R99, R100). -/
theorem Block.act_of_started {b : Block} (hr : b.rst = false) (hs : b.inStarted = true)
    {x : HostAction} (hreset : x ≠ .assertReset) (hoffer : ∀ codes, x ≠ .offer codes) :
    (b.act x).core = b.core ∧ (b.act x).rst = false ∧ (b.act x).inStarted = true := by
  cases x with
  | assertReset => exact absurd rfl hreset
  | offer codes => exact absurd rfl (hoffer codes)
  | releaseReset => exact ⟨rfl, rfl, hs⟩
  | setStepEn level => exact ⟨rfl, hr, hs⟩
  | load addr data => rw [Block.act_load_of_not_rst hr]; exact ⟨rfl, hr, hs⟩
  | proceed =>
    obtain ⟨-, -, hidle, -⟩ | heq := b.act_proceed_cases
    · exact absurd (hs.symm.trans hidle) nofun
    · rw [heq]; exact ⟨rfl, hr, hs⟩

/-- Settles O60: a line resumes the started IN with the step it was waiting for, codes without one
leave it waiting, and the other actions do not touch it. -/
theorem aCompletedLineEndsTheWait : Obligations.ACompletedLineEndsTheWait := by
  refine fun b hwait => ⟨fun codes hline => ?_,
    fun codes hline => Block.act_offer_without_line hwait hline, fun x hr hs hreset hoffer => ?_⟩
  · obtain ⟨t, ht⟩ := State.step_next_of_line hwait hline
    refine ⟨t, ht, fun hr hs => ?_⟩
    have hreq : b.outputs.inLineReq = true := b.inLineReq_iff.mpr ⟨hr, hs⟩
    have hact : b.act (.offer codes) = { b with inStarted := false, core := t } :=
      (Block.act_offer_of_inWait hreq codes).trans (Block.resume_of_next ht)
    exact ⟨hact, hreq, (Block.inLineReq_low_iff _).mpr fun _ => by rw [hact]⟩
  · obtain ⟨hcore, hkept⟩ := Block.act_of_started hr hs hreset hoffer
    exact ⟨hcore, (Block.inLineReq_iff _).mpr hkept⟩

/-! ### OUT, IN, NOOP -/

/-- Settles O37: the emitted code is the read value cut to 8 bits, its residue modulo 256. -/
theorem outEmitsTheLowByte : Obligations.OutEmitsTheLowByte :=
  fun a s => ⟨rfl, _, (s.readOp a).setWidth 8, rfl, BitVec.toNat_setWidth 8 _, rfl⟩

/-- `exec` of IN waits where `next_input()` has no code to give (R85, R99). -/
theorem exec_inp_of_wait {s : State} (h : s.nextInput = none) (a : Operand) :
    exec (.inp a) s = .fault .inputWait := by
  simp only [exec, execIn, h]

/-- Settles O40: without a terminator to come the empty buffer cannot be refilled. -/
theorem inWaitsWithoutALine : Obligations.InWaitsWithoutALine :=
  fun a _ hempty hline =>
    exec_inp_of_wait (State.nextInput_of_wait hempty ((takeLine_eq_none_iff _).mpr hline)) a

/-- Settles O41: the rule of NOOP is the advance by its one word. -/
theorem noopOnlyAdvancesThePc : Obligations.NoopOnlyAdvancesThePc :=
  fun _ => ⟨rfl, _, rfl, rfl⟩

end Sys2Proof.Machine
end

section
/-!
PROOFS. The progress of a RUNNING block (spec 60_exceptions.md R97, R99).
-/

namespace Sys2Proof.Machine

/-- Settles O48: a RUNNING state steps or waits for a line, and the wait is an IN with an empty buffer
and no terminator to come. -/
theorem runningBlockStepsUnlessInWaits : Obligations.RunningBlockStepsUnlessInWaits := by
  intro s hrun
  refine (State.step_next_or_waits hrun).imp_right fun hwait => ?_
  obtain ⟨-, hin⟩ := s.waitsForLine_iff_in.mp hwait
  exact ⟨s.waitsForLine_iff.mp hwait, hin⟩

end Sys2Proof.Machine
end
